-- ==== Sys2Proof/Word.lean ====
section
/-! DEFINITION. The word types of VALU512: bytes, 32-bit words, addresses, lanes and vectors
(00_scope.md R6, R7, R10 to R12). -/

namespace Sys2Proof

/-- A byte (R10). -/
abbrev Byte := BitVec 8

/-- A 32-bit word: a command word, a payload word, or an element of a vector (R6, R80). -/
abbrev Word := BitVec 32

/-- A byte address of the data space (R7, `AW` = 64). -/
abbrev Addr := BitVec 64

/-- The 16-bit immediate field `imm16` (R84). -/
abbrev Imm := BitVec 16

/-- A lane value in its 128-bit number view (R11). -/
abbrev Lane := BitVec 128

/-- A vector value: four lanes, named as UNT names them; `a` is `lane[0]` (R12, R21). -/
@[ext] structure WideVector where
  a : Lane
  b : Lane
  c : Lane
  d : Lane
  deriving DecidableEq, Repr, Inhabited

/-- The number of a vector register, `V0 .. V15` (R21, R83). -/
abbrev VReg := Fin 16

/-- The number of a lane register, `X0 .. X15` (R23, R83). -/
abbrev XReg := Fin 16

end Sys2Proof
end

