-- ==== Sys2Proof/Config.lean ====
section
/-! DEFINITION. What the spec leaves open for good: the unspecified contents of the registers after a reset
(10_state.md R37, 70_reset_and_hazards.md R266, 93_implementation_defined.md U1). The constants have no body, so
nothing can be proved of their values.

The other open parameters are data of a run and stand in State (`MEM_VALID`, `CMD`), or are used by no rule and are
left out (`LAT`, R265). -/

namespace Sys2Proof

/-- `V_reset`: what `V<i>` holds after the reset numbered `n`. A free value (log entry 1; DESIGN CHOICE, safe). -/
opaque Config.vReset (n : Nat) (i : VReg) : WideVector

/-- `X_reset`: what `X<i>` holds after the reset numbered `n`. A free value (log entry 2; DESIGN CHOICE, safe). -/
opaque Config.xReset (n : Nat) (i : XReg) : Lane

end Sys2Proof
end

