-- ==== Sys2Proof/Syntax.lean ====
section
/-! DEFINITION. The fourteen commands, one constructor per row of spec/opcode_table.json (30_encoding.md R82, R86).

The immediate operands keep all sixteen bits of `imm16`: the bits a command ignores (R89) are part of its word. -/

namespace Sys2Proof

/-- A command with its operands, in the operand order of the assembler notation (R92). -/
inductive Instr where
  /-- `SETR Vd, {e0, ..., e15}` (R120); well formed with sixteen elements. -/
  | setr (vd : VReg) (e : List Word)
  /-- `LOADU Vd, [addr]` (R130). -/
  | loadu (vd : VReg) (addr : Addr)
  /-- `STOREU Vs1, [addr]` (R131). -/
  | storeu (vs1 : VReg) (addr : Addr)
  /-- `VXOR Vd, Vs1, Vs2` (R150). -/
  | vxor (vd vs1 vs2 : VReg)
  /-- `VOR Vd, Vs1, Vs2` (R151). -/
  | vor (vd vs1 vs2 : VReg)
  /-- `VAND Vd, Vs1, Vs2` (R152). -/
  | vand (vd vs1 vs2 : VReg)
  /-- `AESRND Vd, Vs1, Vs2`: `Vs1` the states, `Vs2` the round keys (R160). -/
  | aesrnd (vd vs1 vs2 : VReg)
  /-- `SHUF Vd, Vs1, Vs2, ctl` (R180). -/
  | shuf (vd vs1 vs2 : VReg) (ctl : Imm)
  /-- `EXTR Xd, Vs1, idx` (R181). -/
  | extr (xd : XReg) (vs1 : VReg) (idx : Imm)
  /-- `BCAST Vd, Xs2` (R182). -/
  | bcast (vd : VReg) (xs2 : XReg)
  /-- `INS Vd, Vs1, Xs2, idx` (R183). -/
  | ins (vd vs1 : VReg) (xs2 : XReg) (idx : Imm)
  /-- `MBCAST Vd, Vs1, Xs2, mask` (R201). -/
  | mbcast (vd vs1 : VReg) (xs2 : XReg) (mask : Imm)
  /-- `SLL Vd, Vs1, cnt` (R210). -/
  | sll (vd vs1 : VReg) (cnt : Imm)
  /-- `SRL Vd, Vs1, cnt` (R211). -/
  | srl (vd vs1 : VReg) (cnt : Imm)
  deriving DecidableEq, Repr

end Sys2Proof
end

