-- ==== Sys2Proof/Machine/State.lean ====
section
/-! DEFINITION. The state of one VALU512 block and of the memory and command stream it runs with
(10_state.md R20 to R37). -/

namespace Sys2Proof.Machine

/-- The data memory: the listed bytes in rising order of address; every other byte reads as
`Memory.unlisted` (R34). -/
abbrev Memory := List Host.Cell

/-- What a byte of memory reads as when it is not listed. The spec gives no initial contents (R37: memory is
unchanged by reset). DESIGN CHOICE, log entry 4, unsafe: no claim about a byte that nothing has written may rest on it. -/
def Memory.unlisted : Byte := 0

/-- A range of byte addresses, both ends included. -/
structure AddrRange where
  first : Nat
  last : Nat
  deriving DecidableEq, Repr

/-- The state. Everything R20 lists, the memory (R34), and the two parameters of a run that are data:
`MEM_VALID` (R58) and the command stream (R35); and the model's own count of resets. -/
structure State where
  /-- `V0 .. V15` (R21). -/
  v : Vector WideVector 16
  /-- `X0 .. X15` (R23). -/
  x : Vector Lane 16
  /-- The command pointer, an index of a word of the stream (R26). -/
  pc : BitVec 32
  /-- `FSTAT`: `FAULT` in bit 0, `CAUSE` in bits 3:1, bits 31:4 zero (R30). -/
  fstat : BitVec 32
  /-- `FPC` (R31). -/
  fpc : BitVec 32
  /-- `FADDR` (R32). -/
  faddr : Addr
  /-- The data memory (R34). -/
  mem : Memory
  /-- The complement of `MEM_VALID` (R58): the ranges of addresses the platform's memory does not accept
  (log entry 5). -/
  holes : List AddrRange
  /-- `CMD[0 .. N-1]`, with `N` its length (R35; log entry 6). -/
  cmd : List Word
  /-- The model's own field: how many reset events there were since the first, which numbers the free contents of
  the registers (log entry 3). -/
  resets : Nat
  deriving DecidableEq, Repr

/-- Why the machine takes no step. Raised by `sequencerStep` (R94) only; none is a fault of the block, whose three faults
(R220) are next states with `FSTAT.FAULT = 1`. -/
inductive Fault where
  /-- `FSTAT.FAULT = 1`: halted until reset (R94, R227). Raised by `sequencerStep`; safe, the block takes no step. -/
  | halted
  /-- `pc = N` with no fault: the run is over (R94, R97). Raised by `sequencerStep`; safe, the block takes no step. -/
  | endOfRun
  /-- The stream ends inside a legal command: stuck, waiting for payload (R94, R96). Raised by `sequencerStep`; safe, the
  block takes no step. -/
  | truncatedCommand
  /-- `pc > N`, which no run reaches (R28). Raised by `sequencerStep`; safe, it stops. -/
  | pcBeyondStream
  deriving DecidableEq, Repr

/-- What the model does not accept. -/
inductive Refusal where
  /-- The instruction has no meaning yet. Raised by no arm of `exec`; safe, it stops. -/
  | notModelled (mnemonic : String)
  /-- A stream of 2^32 words or more, which the spec gives no meaning (R28, 93_implementation_defined.md U9).
  Raised by `sequencerStep`; safe, it stops. -/
  | streamTooLong
  /-- A `SETR` term that does not carry sixteen elements: no word encodes it and `decode` never answers it. Raised by
  `execSetr`; safe, it stops. -/
  | illFormedSetr
  deriving DecidableEq, Repr

/-- The sixteen unspecified vector registers after the reset numbered `n` (R37, R266). -/
def vFile (n : Nat) : Vector WideVector 16 :=
  ⟨#[Config.vReset n 0, Config.vReset n 1, Config.vReset n 2, Config.vReset n 3,
     Config.vReset n 4, Config.vReset n 5, Config.vReset n 6, Config.vReset n 7,
     Config.vReset n 8, Config.vReset n 9, Config.vReset n 10, Config.vReset n 11,
     Config.vReset n 12, Config.vReset n 13, Config.vReset n 14, Config.vReset n 15], rfl⟩

/-- The sixteen unspecified lane registers after the reset numbered `n` (R37, R266). -/
def xFile (n : Nat) : Vector Lane 16 :=
  ⟨#[Config.xReset n 0, Config.xReset n 1, Config.xReset n 2, Config.xReset n 3,
     Config.xReset n 4, Config.xReset n 5, Config.xReset n 6, Config.xReset n 7,
     Config.xReset n 8, Config.xReset n 9, Config.xReset n 10, Config.xReset n 11,
     Config.xReset n 12, Config.xReset n 13, Config.xReset n 14, Config.xReset n 15], rfl⟩

/-- The machine right after the first reset (R37): the control registers 0, the stream empty, `V` and `X` unspecified.
No program is loaded; a run begins when the host delivers words (log entry 6). -/
def State.reset : State where
  v := vFile 0
  x := xFile 0
  pc := 0
  fstat := 0
  fpc := 0
  faddr := 0
  mem := []
  holes := []
  cmd := []
  resets := 0

end Sys2Proof.Machine
end

