-- ==== Sys2Proof/Machine/Flags.lean ====
section
/-! DEFINITION. The block has no status flag, condition code or predicate register (10_state.md R29), so no command
computes one. What stands here are the fields of the fault status register `FSTAT` (R30) and the cause codes
(60_exceptions.md R220). -/

namespace Sys2Proof.Machine

/-- The three causes of a fault (R220). -/
inductive Cause where
  /-- `ILLEGAL_COMMAND` (R221). -/
  | illegalCommand
  /-- `LOAD_ACCESS_FAULT` (R222). -/
  | loadAccess
  /-- `STORE_ACCESS_FAULT` (R223). -/
  | storeAccess
  deriving DecidableEq, Repr

/-- The code a cause has in `FSTAT.CAUSE` (R220). -/
def causeCode : Cause → BitVec 3
  | .illegalCommand => 1
  | .loadAccess => 2
  | .storeAccess => 3

/-- `FSTAT.FAULT`, bit 0 (R30). -/
def fstatFault (fstat : BitVec 32) : Bool := fstat.getLsbD 0

/-- `FSTAT.CAUSE`, bits 3:1 (R30). -/
def fstatCause (fstat : BitVec 32) : BitVec 3 := fstat.extractLsb' 1 3

/-- `FSTAT` with `FAULT = 1` and the cause's code in `CAUSE`; the reserved bits are hardwired zero (R30, R227). -/
def fstatOf (c : Cause) : BitVec 32 := BitVec.ofNat 32 (1 + (causeCode c).toNat * 2)

end Sys2Proof.Machine
end

