-- ==== Sys2Proof/Machine/Operands.lean ====
section
/-! DEFINITION. The views of lanes and vectors (00_scope.md R11, R12; 20_memory.md R50 to R52) and the parts of the
immediate that commands use (30_encoding.md R84). -/

namespace Sys2Proof.Machine

/-! ### Lanes -/

/-- `L.B[i]`, byte `i` of a lane: `L[8*i+7 : 8*i]` (R11). -/
def laneByte (l : Lane) (i : Nat) : Byte := l.extractLsb' (8 * i) 8

/-- `L.E[p]`, element `p` of a lane: `L[32*p+31 : 32*p]`, so the lowest-addressed byte of an element is its least
significant (R11, R52). -/
def laneElem (l : Lane) (p : Nat) : Word := l.extractLsb' (32 * p) 32

/-- `sum over i < n of f i * 2^(w*i)`: the number whose chunks of `w` bits are `f 0 .. f (n-1)` (R11). -/
def packChunks (w : Nat) (f : Nat → Nat) : Nat → Nat
  | 0 => 0
  | n + 1 => packChunks w f n + f n * 2 ^ (w * n)

/-- The lane whose byte `i` is `f i`, `0 <= i <= 15` (R11). -/
def laneOfBytes (f : Nat → Byte) : Lane :=
  BitVec.ofNat 128 (packChunks 8 (fun i => (f i).toNat) 16)

/-- The lane whose element `p` is `f p`, `0 <= p <= 3` (R11). -/
def laneOfElems (f : Nat → Word) : Lane :=
  BitVec.ofNat 128 (packChunks 32 (fun p => (f p).toNat) 4)

/-! ### Vectors -/

/-- `W.lane[k]` (R12). -/
def vecLane (w : WideVector) : Fin 4 → Lane
  | 0 => w.a
  | 1 => w.b
  | 2 => w.c
  | 3 => w.d

/-- The vector whose `lane[k]` is `f k`: `lanes(f 0, f 1, f 2, f 3)` (R12). -/
def vecOfLanes (f : Fin 4 → Lane) : WideVector := ⟨f 0, f 1, f 2, f 3⟩

/-- `W.byte[j] = W.lane[j div 16].B[j mod 16]`, for `0 <= j <= 63` (R12, R50). -/
def vecByte (w : WideVector) (j : Nat) : Byte := laneByte (vecLane w (Fin.ofNat 4 (j / 16))) (j % 16)

/-- `W.elem[e] = W.lane[e div 4].E[e mod 4]`, for `0 <= e <= 15` (R12). -/
def vecElem (w : WideVector) (e : Nat) : Word := laneElem (vecLane w (Fin.ofNat 4 (e / 4))) (e % 4)

/-- The vector whose element `p` of lane `k` is `f (4*k + p)` (R12). -/
def vecOfElems (f : Nat → Word) : WideVector :=
  vecOfLanes fun k => laneOfElems fun p => f (4 * k.val + p)

/-- Apply a function of one lane to the four lanes of a vector. -/
def vecMap (f : Lane → Lane) (u : WideVector) : WideVector := vecOfLanes fun k => f (vecLane u k)

/-- Apply a function of two lanes to the four lane pairs of two vectors. -/
def vecZip (f : Lane → Lane → Lane) (u w : WideVector) : WideVector :=
  vecOfLanes fun k => f (vecLane u k) (vecLane w k)

/-! ### Immediates -/

/-- The 2-bit selector field `k` of an immediate, `imm16[2*k+1 : 2*k]`: `f0 .. f3` of `SHUF`, and field 0 the lane
index of `EXTR` and `INS` (R84). -/
def laneSelector (imm : Imm) (k : Nat) : Fin 4 := (imm.extractLsb' (2 * k) 2).toFin

/-- Bit `i` of the element mask (R84, R200). -/
def maskBit (mask : Imm) (i : Nat) : Bool := mask.getLsbD i

end Sys2Proof.Machine
end

