-- ==== Sys2Proof/Machine/Ops.lean ====
section
/-! DEFINITION. The operations that commands are written with: registers (00_scope.md R13), memory (20_memory.md R54 to
R60), the advance of the command pointer (10_state.md R27), the fetch (30_encoding.md R94), taking a fault
(60_exceptions.md R227), and the reset event, which is the only way out of a fault (R228, 70_reset_and_hazards.md R260). -/

namespace Sys2Proof.Machine

/-! ### Registers -/

/-- `V[r]` (R13). -/
def State.readV (s : State) (r : VReg) : WideVector := s.v[r.val]

/-- `V[r] <- w`, all 512 bits (R13, R22). -/
def State.writeV (s : State) (r : VReg) (w : WideVector) : State := { s with v := s.v.set r.val w }

/-- `X[r]` (R13). -/
def State.readX (s : State) (r : XReg) : Lane := s.x[r.val]

/-- `X[r] <- l` (R13, R23). -/
def State.writeX (s : State) (r : XReg) (l : Lane) : State := { s with x := s.x.set r.val l }

/-- `pc <- pc + n`, in words (R13, R27). In a step `pc + n <= N < 2^32`, so the sum never wraps (R28; log entry 9). -/
def State.advance (s : State) (n : Nat) : State := { s with pc := s.pc + BitVec.ofNat 32 n }

/-! ### Memory -/

/-- The byte at an address. -/
def Memory.read : Memory → Nat → Byte
  | [], _ => Memory.unlisted
  | (k, v) :: m, a => if k = a then v else Memory.read m a

/-- Put a byte in front of the cells above it; a byte equal to what an unlisted address reads as is not listed. -/
def Memory.cons (a : Nat) (b : Byte) (m : Memory) : Memory :=
  if b = Memory.unlisted then m else (a, b) :: m

/-- The memory with the byte at `a` replaced by `b`, in canonical form. -/
def Memory.write : Memory → Nat → Byte → Memory
  | [], a, b => Memory.cons a b []
  | (k, v) :: m, a, b =>
    if a < k then Memory.cons a b ((k, v) :: m)
    else if a = k then Memory.cons a b m
    else (k, v) :: Memory.write m a b

/-- Write `f 0 .. f (n-1)` at `a .. a+n-1`. -/
def Memory.writeBytes (m : Memory) (a : Nat) (f : Nat → Byte) : Nat → Memory
  | 0 => m
  | n + 1 => (Memory.writeBytes m a f n).write (a + n) (f n)

/-- Every key of the list is above `lo`, the keys rise strictly, are byte addresses, and no listed byte is one an
unlisted address reads as. -/
def Memory.wfAbove (lo : Option Nat) : Memory → Bool
  | [] => true
  | (k, v) :: m =>
    (match lo with | none => true | some l => decide (l < k)) && decide (k < 2 ^ 64) &&
      decide (v ≠ Memory.unlisted) && Memory.wfAbove (some k) m

/-- The canonical form of a memory: strictly rising addresses below 2^64, no entry equal to what an unlisted address
reads as. Equal memories are equal lists. -/
def Memory.wf (m : Memory) : Bool := Memory.wfAbove none m

/-- The state with another memory. -/
def State.setMem (s : State) (m : Memory) : State := { s with mem := m }

/-- The byte that memory holds at `a`. -/
def State.readByte (s : State) (a : Nat) : Byte := s.mem.read a

/-- `a` lies in the range. -/
def AddrRange.has (r : AddrRange) (a : Nat) : Bool := decide (r.first ≤ a) && decide (a ≤ r.last)

/-- `MEM_VALID(a)`: an address of the space that no hole contains (R34, R58). -/
def State.memValid (s : State) (a : Nat) : Bool := decide (a < 2 ^ 64) && !s.holes.any (fun r => r.has a)

/-- The memory port answers "done" to a 16-byte access at `la`: all sixteen bytes are valid (R58). -/
def State.portDone (s : State) (la : Nat) : Bool := (List.range 16).all fun j => s.memValid (la + j)

/-- `MemRead(la, 16)`: the lane whose byte `j` is the byte at `la + j`, or `none` for the answer "error" (R60). -/
def State.memRead16 (s : State) (la : Nat) : Option Lane :=
  if s.portDone la then some (laneOfBytes fun j => s.readByte (la + j)) else none

/-- `MemWrite(la, 16, l)`: byte `j` of the lane goes to `la + j`; `none` for the answer "error", which writes nothing
(R60). -/
def State.memWrite16 (s : State) (la : Nat) (l : Lane) : Option State :=
  if s.portDone la then some (s.setMem (s.mem.writeBytes la (laneByte l) 16)) else none

/-! ### Fetch -/

/-- The words of the stream from `pc` on, read by the sequencer (R35, R94). -/
def State.fetch (s : State) : List Word := s.cmd.drop s.pc.toNat

/-! ### Taking a fault -/

/-- `raise Fault(cause, a)`: `FSTAT`, `FPC` and `FADDR` are written and nothing else changes; `pc` stays (R227). -/
def State.raiseFault (s : State) (c : Cause) (a : Addr) : State :=
  { s with fstat := fstatOf c, fpc := s.pc, faddr := a }

/-! ### Reset, the only way out of a fault -/

/-- The reset event between two commands: `pc` and the fault registers 0, the stream discarded, every register
unspecified anew, memory untouched (R37, R260). -/
def State.resetEvent (s : State) : State :=
  { s with
    v := vFile (s.resets + 1), x := xFile (s.resets + 1)
    pc := 0, fstat := 0, fpc := 0, faddr := 0, cmd := [], resets := s.resets + 1 }

end Sys2Proof.Machine
end

