-- ==== Sys2Proof/Machine/Bitwise.lean ====
section
/-! DEFINITION. `VXOR`, `VOR`, `VAND` (42_bitwise.md). -/

namespace Sys2Proof.Machine

/-- The template of the `VVV` commands: the result of a function of the two source vectors, both read before the
destination is written (R150, R263). -/
def vvv (f : WideVector → WideVector → WideVector) (vd vs1 vs2 : VReg) (s : State) : State :=
  (s.writeV vd (f (s.readV vs1) (s.readV vs2))).advance 1

/-- `VXOR Vd, Vs1, Vs2` (R150). -/
def execVxor (vd vs1 vs2 : VReg) (s : State) : Host.Outcome State Fault Refusal :=
  .next (vvv (vecZip fun a b => a ^^^ b) vd vs1 vs2 s)

/-- `VOR Vd, Vs1, Vs2` (R151). -/
def execVor (vd vs1 vs2 : VReg) (s : State) : Host.Outcome State Fault Refusal :=
  .next (vvv (vecZip fun a b => a ||| b) vd vs1 vs2 s)

/-- `VAND Vd, Vs1, Vs2` (R152). -/
def execVand (vd vs1 vs2 : VReg) (s : State) : Host.Outcome State Fault Refusal :=
  .next (vvv (vecZip fun a b => a &&& b) vd vs1 vs2 s)

end Sys2Proof.Machine
end

