-- ==== Sys2Proof/Machine/Construct.lean ====
section
/-! DEFINITION. `SETR` (40_construct.md). -/

namespace Sys2Proof.Machine

/-- `SETR Vd, {e0, ..., e15}`: element `p` of lane `k` is `e (4*k + p)` (R120). A term without sixteen elements is no
command and is refused. -/
def execSetr (vd : VReg) (e : List Word) (s : State) : Host.Outcome State Fault Refusal :=
  if e.length = 16 then .next ((s.writeV vd (vecOfElems fun i => e.getD i 0)).advance 17)
  else .refused .illFormedSetr

end Sys2Proof.Machine
end

