-- ==== Sys2Proof/Machine/LaneMux.lean ====
section
/-! DEFINITION. `SHUF`, `EXTR`, `BCAST`, `INS` (44_lane.md). -/

namespace Sys2Proof.Machine

/-- The lanes of a shuffle: results 0 and 1 from the first source, 2 and 3 from the second (R180). -/
def shuffleLanes (s1 s2 : WideVector) (ctl : Imm) : WideVector :=
  ⟨vecLane s1 (laneSelector ctl 0), vecLane s1 (laneSelector ctl 1),
   vecLane s2 (laneSelector ctl 2), vecLane s2 (laneSelector ctl 3)⟩

/-- All four lanes equal to `l` (R182). -/
def broadcastLane (l : Lane) : WideVector := ⟨l, l, l, l⟩

/-- `w` with lane `i` replaced by `l` (R183). -/
def insertLane (w : WideVector) (l : Lane) (i : Fin 4) : WideVector :=
  vecOfLanes fun k => if k = i then l else vecLane w k

/-- `SHUF Vd, Vs1, Vs2, ctl`; `imm16[15:8]` is ignored (R180, R89). -/
def execShuf (vd vs1 vs2 : VReg) (ctl : Imm) (s : State) : Host.Outcome State Fault Refusal :=
  .next ((s.writeV vd (shuffleLanes (s.readV vs1) (s.readV vs2) ctl)).advance 1)

/-- `EXTR Xd, Vs1, idx`; `imm16[15:2]` is ignored (R181, R89). -/
def execExtr (xd : XReg) (vs1 : VReg) (idx : Imm) (s : State) : Host.Outcome State Fault Refusal :=
  .next ((s.writeX xd (vecLane (s.readV vs1) (laneSelector idx 0))).advance 1)

/-- `BCAST Vd, Xs2` (R182). -/
def execBcast (vd : VReg) (xs2 : XReg) (s : State) : Host.Outcome State Fault Refusal :=
  .next ((s.writeV vd (broadcastLane (s.readX xs2))).advance 1)

/-- `INS Vd, Vs1, Xs2, idx`; `imm16[15:2]` is ignored (R183, R89). -/
def execIns (vd vs1 : VReg) (xs2 : XReg) (idx : Imm) (s : State) : Host.Outcome State Fault Refusal :=
  .next ((s.writeV vd (insertLane (s.readV vs1) (s.readX xs2) (laneSelector idx 0))).advance 1)

end Sys2Proof.Machine
end

