-- ==== Sys2Proof/Machine/LoadStore.lean ====
section
/-! DEFINITION. `LOADU` and `STOREU` (41_loadstore.md, 20_memory.md R54 to R60). -/

namespace Sys2Proof.Machine

/-- The window check: `addr <= 2^64 - 64` (R59, R132). -/
def windowFits (addr : Addr) : Bool := decide (addr.toNat ≤ 2 ^ 64 - 64)

/-- The lanes in the order in which they are accessed (R54). -/
def laneOrder : List (Fin 4) := [0, 1, 2, 3]

/-- The address of the access of lane `k`: `addr + 16*k` (R54). -/
def laneAddr (addr : Nat) (k : Fin 4) : Nat := addr + 16 * k.val

/-- The four reads of a window, in order; the address of the first lane access answered "error", if any (R130). -/
def loadWindow (s : State) (addr : Nat) : Except Nat WideVector :=
  match s.memRead16 (laneAddr addr 0) with
  | none => .error (laneAddr addr 0)
  | some t0 =>
    match s.memRead16 (laneAddr addr 1) with
    | none => .error (laneAddr addr 1)
    | some t1 =>
      match s.memRead16 (laneAddr addr 2) with
      | none => .error (laneAddr addr 2)
      | some t2 =>
        match s.memRead16 (laneAddr addr 3) with
        | none => .error (laneAddr addr 3)
        | some t3 => .ok ⟨t0, t1, t2, t3⟩

/-- The writes of the lanes `ks` of `w`, in order, stopping at the first access answered "error", whose address comes
back with the state so far (R131, R133). -/
def storeLanes (w : WideVector) (addr : Nat) : List (Fin 4) → State → State × Option Nat
  | [], s => (s, none)
  | k :: ks, s =>
    match s.memWrite16 (laneAddr addr k) (vecLane w k) with
    | none => (s, some (laneAddr addr k))
    | some s' => storeLanes w addr ks s'

/-- `LOADU Vd, [addr]` (R130): the destination is written once, after the fourth read. -/
def execLoadu (vd : VReg) (addr : Addr) (s : State) : Host.Outcome State Fault Refusal :=
  if windowFits addr then
    match loadWindow s addr.toNat with
    | .ok w => .next ((s.writeV vd w).advance 3)
    | .error la => .next (s.raiseFault .loadAccess (BitVec.ofNat 64 la))
  else .next (s.raiseFault .loadAccess addr)

/-- `STOREU Vs1, [addr]` (R131): the lanes before a failing one stay written (R133). -/
def execStoreu (vs1 : VReg) (addr : Addr) (s : State) : Host.Outcome State Fault Refusal :=
  if windowFits addr then
    match storeLanes (s.readV vs1) addr.toNat laneOrder s with
    | (t, none) => .next (t.advance 3)
    | (t, some la) => .next (t.raiseFault .storeAccess (BitVec.ofNat 64 la))
  else .next (s.raiseFault .storeAccess addr)

end Sys2Proof.Machine
end

