-- ==== Sys2Proof/Machine/MaskBcast.lean ====
section
/-! DEFINITION. `MBCAST` (45_maskbcast.md). -/

namespace Sys2Proof.Machine

/-- The expanded mask of element `i`: all ones if its mask bit is set, else all zeros (R201). -/
def elementMask (mask : Imm) (i : Nat) : Word := if maskBit mask i then 0xFFFFFFFF else 0

/-- `src ^ ((src ^ x) & m)`, the branch-free select (R201, R202). -/
def selectXorAnd (src x m : Word) : Word := src ^^^ ((src ^^^ x) &&& m)

/-- `MBCAST Vd, Vs1, Xs2, mask` (R201). -/
def execMbcast (vd vs1 : VReg) (xs2 : XReg) (mask : Imm) (s : State) : Host.Outcome State Fault Refusal :=
  .next ((s.writeV vd (vecOfElems fun i =>
    selectXorAnd (vecElem (s.readV vs1) i) (laneElem (s.readX xs2) (i % 4)) (elementMask mask i))).advance 1)

end Sys2Proof.Machine
end

