-- ==== Sys2Proof/Machine/Shift.lean ====
section
/-! DEFINITION. `SLL` and `SRL` (46_shift.md). The count is compared as a 16-bit number before any shift, so a count of 32
or more never reaches the shift of the host language (93_implementation_defined.md U4). -/

namespace Sys2Proof.Machine

/-- One element shifted left: 0 from 32 up, else `(x * 2^cnt) mod 2^32` (R210). -/
def sllElem (cnt : Nat) (x : Word) : Word := if 32 ≤ cnt then 0 else BitVec.ofNat 32 (x.toNat * 2 ^ cnt)

/-- One element shifted right: 0 from 32 up, else `floor(x / 2^cnt)` (R211). -/
def srlElem (cnt : Nat) (x : Word) : Word := if 32 ≤ cnt then 0 else BitVec.ofNat 32 (x.toNat / 2 ^ cnt)

/-- `SLL Vd, Vs1, cnt` (R210). -/
def execSll (vd vs1 : VReg) (cnt : Imm) (s : State) : Host.Outcome State Fault Refusal :=
  .next ((s.writeV vd (vecOfElems fun i => sllElem cnt.toNat (vecElem (s.readV vs1) i))).advance 1)

/-- `SRL Vd, Vs1, cnt` (R211). -/
def execSrl (vd vs1 : VReg) (cnt : Imm) (s : State) : Host.Outcome State Fault Refusal :=
  .next ((s.writeV vd (vecOfElems fun i => srlElem cnt.toNat (vecElem (s.readV vs1) i))).advance 1)

end Sys2Proof.Machine
end

