-- ==== Sys2Proof/Machine/Dispatch.lean ====
section
/-! DEFINITION. The dispatch of a decoded command to its meaning. -/

namespace Sys2Proof.Machine

def exec (i : Instr) (s : State) : Host.Outcome State Fault Refusal :=
  match i with
  | .setr vd e => Sys2Proof.Machine.execSetr vd e s
  | .loadu vd addr => Sys2Proof.Machine.execLoadu vd addr s
  | .storeu vs1 addr => Sys2Proof.Machine.execStoreu vs1 addr s
  | .vxor vd vs1 vs2 => Sys2Proof.Machine.execVxor vd vs1 vs2 s
  | .vor vd vs1 vs2 => Sys2Proof.Machine.execVor vd vs1 vs2 s
  | .vand vd vs1 vs2 => Sys2Proof.Machine.execVand vd vs1 vs2 s
  | .aesrnd vd vs1 vs2 => Sys2Proof.Machine.execAesrnd vd vs1 vs2 s
  | .shuf vd vs1 vs2 ctl => Sys2Proof.Machine.execShuf vd vs1 vs2 ctl s
  | .extr xd vs1 idx => Sys2Proof.Machine.execExtr xd vs1 idx s
  | .bcast vd xs2 => Sys2Proof.Machine.execBcast vd xs2 s
  | .ins vd vs1 xs2 idx => Sys2Proof.Machine.execIns vd vs1 xs2 idx s
  | .mbcast vd vs1 xs2 mask => Sys2Proof.Machine.execMbcast vd vs1 xs2 mask s
  | .sll vd vs1 cnt => Sys2Proof.Machine.execSll vd vs1 cnt s
  | .srl vd vs1 cnt => Sys2Proof.Machine.execSrl vd vs1 cnt s

end Sys2Proof.Machine
end

