-- ==== Sys2Proof/WellFormed.lean ====
section
/-! DEFINITION. Which terms of `Instr` are commands of the block. Register numbers and immediates are bounded by
their types; the one check left is that `SETR` carries sixteen elements (30_encoding.md R82, R85). -/

namespace Sys2Proof

/-- The term is a command that a command stream can carry. -/
def Instr.wellFormed : Instr → Bool
  | .setr _ e => e.length == 16
  | .loadu _ _ => true
  | .storeu _ _ => true
  | .vxor _ _ _ => true
  | .vor _ _ _ => true
  | .vand _ _ _ => true
  | .aesrnd _ _ _ => true
  | .shuf _ _ _ _ => true
  | .extr _ _ _ => true
  | .bcast _ _ => true
  | .ins _ _ _ _ => true
  | .mbcast _ _ _ _ => true
  | .sll _ _ _ => true
  | .srl _ _ _ => true

/-- `Instr.wellFormed` as a proposition. -/
abbrev Instr.WellFormed (i : Instr) : Prop := i.wellFormed = true

end Sys2Proof
end

