-- ==== Sys2Proof/Decode.lean ====
section
/-! DEFINITION. Command words, the decoder and the encoder (30_encoding.md R80 to R93). -/

namespace Sys2Proof

/-! ### The fields of a command word (R81) -/

/-- `op`, bits 3:0. -/
def opField (w : Word) : BitVec 4 := w.extractLsb' 0 4

/-- `rd`, bits 7:4. -/
def rdField (w : Word) : BitVec 4 := w.extractLsb' 4 4

/-- `rs1`, bits 11:8. -/
def rs1Field (w : Word) : BitVec 4 := w.extractLsb' 8 4

/-- `rs2`, bits 15:12. -/
def rs2Field (w : Word) : BitVec 4 := w.extractLsb' 12 4

/-- `imm16`, bits 31:16. -/
def immField (w : Word) : Imm := w.extractLsb' 16 16

/-- The register a 4-bit field names: all sixteen values are legal (R83). -/
def regOf (f : BitVec 4) : Fin 16 := f.toFin

/-- `word = op + rd*2^4 + rs1*2^8 + rs2*2^12 + imm16*2^16` (R81). -/
def commandWord (op rd rs1 rs2 imm : Nat) : Word :=
  BitVec.ofNat 32 (op + rd * 2 ^ 4 + rs1 * 2 ^ 8 + rs2 * 2 ^ 12 + imm * 2 ^ 16)

/-! ### Lengths (R80, R90) -/

/-- The length in words that the decoder reads from `op` alone (R90). -/
def lengthOfOp (op : BitVec 4) : Nat :=
  if op.toNat = 1 then 17 else if op.toNat = 2 ∨ op.toNat = 3 then 3 else 1

/-- The length of a command in words (R80). -/
def Instr.words : Instr → Nat
  | .setr _ _ => 17
  | .loadu _ _ => 3
  | .storeu _ _ => 3
  | .vxor _ _ _ => 1
  | .vor _ _ _ => 1
  | .vand _ _ _ => 1
  | .aesrnd _ _ _ => 1
  | .shuf _ _ _ _ => 1
  | .extr _ _ _ => 1
  | .bcast _ _ => 1
  | .ins _ _ _ _ => 1
  | .mbcast _ _ _ _ => 1
  | .sll _ _ _ => 1
  | .srl _ _ _ => 1

/-- The mnemonic of a command (R86). -/
def Instr.mnemonic : Instr → String
  | .setr _ _ => "SETR"
  | .loadu _ _ => "LOADU"
  | .storeu _ _ => "STOREU"
  | .vxor _ _ _ => "VXOR"
  | .vor _ _ _ => "VOR"
  | .vand _ _ _ => "VAND"
  | .aesrnd _ _ _ => "AESRND"
  | .shuf _ _ _ _ => "SHUF"
  | .extr _ _ _ => "EXTR"
  | .bcast _ _ => "BCAST"
  | .ins _ _ _ _ => "INS"
  | .mbcast _ _ _ _ => "MBCAST"
  | .sll _ _ _ => "SLL"
  | .srl _ _ _ => "SRL"

/-! ### Decoding -/

/-- Why a list of words is not a command. -/
inductive DecodeError where
  /-- `op` is 0x0 or 0xF (R87). -/
  | reservedOpcode
  /-- A field the command's format does not use is not zero (R88). -/
  | reservedField
  /-- The command word is legal and payload words are missing (R96). -/
  | truncated
  /-- There is no command word. -/
  | noCommandWord
  deriving DecidableEq, Repr

/-- The 64-bit address of two payload words, low word first (R85). -/
def addrOfWords (lo hi : Word) : Addr := BitVec.ofNat 64 (lo.toNat + hi.toNat * 2 ^ 32)

/-- The payload of `LOADU` and `STOREU`: two address words (R82, R85). -/
def takeAddr (ws : List Word) (k : Addr → Instr) : Except DecodeError (Instr × List Word) :=
  match ws with
  | lo :: hi :: rest => .ok (k (addrOfWords lo hi), rest)
  | _ => .error .truncated

/-- The payload of `SETR`: sixteen element words, `e0` first (R82, R85). -/
def takeElems (ws : List Word) (k : List Word → Instr) : Except DecodeError (Instr × List Word) :=
  if 16 ≤ ws.length then .ok (k (ws.take 16), ws.drop 16) else .error .truncated

/-- Whether every field that the format of `op` marks reserved is zero (R82, R88). Defined for the fourteen
opcodes; `false` for the two reserved ones (R87). -/
def reservedFieldsZero (w : Word) : Bool :=
  match (opField w).toNat with
  | 1 => rs1Field w == 0 && rs2Field w == 0 && immField w == 0
  | 2 => rs1Field w == 0 && rs2Field w == 0 && immField w == 0
  | 3 => rdField w == 0 && rs2Field w == 0 && immField w == 0
  | 4 => immField w == 0
  | 5 => immField w == 0
  | 6 => immField w == 0
  | 7 => immField w == 0
  | 8 => true
  | 9 => rs2Field w == 0
  | 10 => rs1Field w == 0 && immField w == 0
  | 11 => true
  | 12 => true
  | 13 => rs2Field w == 0
  | 14 => rs2Field w == 0
  | _ => false

/-- Whether `op` is 0x0 or 0xF (R87). -/
def opReserved (w : Word) : Bool := (opField w).toNat == 0 || (opField w).toNat == 15

/-- The command of a legal command word, with its payload taken from the words that follow (R82, R86). The last
line is never reached from `decode`, which has ruled the reserved opcodes out. -/
def decodeLegal (w : Word) (ws : List Word) : Except DecodeError (Instr × List Word) :=
  let rd := regOf (rdField w)
  let rs1 := regOf (rs1Field w)
  let rs2 := regOf (rs2Field w)
  let imm := immField w
  match (opField w).toNat with
  | 1 => takeElems ws (.setr rd)
  | 2 => takeAddr ws (.loadu rd)
  | 3 => takeAddr ws (.storeu rs1)
  | 4 => .ok (.vxor rd rs1 rs2, ws)
  | 5 => .ok (.vor rd rs1 rs2, ws)
  | 6 => .ok (.vand rd rs1 rs2, ws)
  | 7 => .ok (.aesrnd rd rs1 rs2, ws)
  | 8 => .ok (.shuf rd rs1 rs2 imm, ws)
  | 9 => .ok (.extr rd rs1 imm, ws)
  | 10 => .ok (.bcast rd rs2, ws)
  | 11 => .ok (.ins rd rs1 rs2 imm, ws)
  | 12 => .ok (.mbcast rd rs1 rs2 imm, ws)
  | 13 => .ok (.sll rd rs1 imm, ws)
  | 14 => .ok (.srl rd rs1 imm, ws)
  | _ => .error .reservedOpcode

/-- Decode the command at the head of a list of words; the rest of the list comes back. Legality is checked on the
command word before any payload word is looked at (R90). -/
def decode : List Word → Except DecodeError (Instr × List Word)
  | [] => .error .noCommandWord
  | w :: ws =>
    if opReserved w then .error .reservedOpcode
    else if reservedFieldsZero w then decodeLegal w ws
    else .error .reservedField

/-! ### The opcode map as match and mask (R86) -/

/-- One row of the table of R86. -/
structure OpcodeRow where
  mnemonic : String
  pattern : Word
  mask : Word
  length : Nat
  deriving DecidableEq, Repr

/-- The fourteen rows of R86. -/
def opcodeRows : List OpcodeRow :=
  [⟨"SETR", 0x00000001, 0xFFFFFF0F, 17⟩, ⟨"LOADU", 0x00000002, 0xFFFFFF0F, 3⟩,
   ⟨"STOREU", 0x00000003, 0xFFFFF0FF, 3⟩, ⟨"VXOR", 0x00000004, 0xFFFF000F, 1⟩,
   ⟨"VOR", 0x00000005, 0xFFFF000F, 1⟩, ⟨"VAND", 0x00000006, 0xFFFF000F, 1⟩,
   ⟨"AESRND", 0x00000007, 0xFFFF000F, 1⟩] ++
  [⟨"SHUF", 0x00000008, 0x0000000F, 1⟩, ⟨"EXTR", 0x00000009, 0x0000F00F, 1⟩,
   ⟨"BCAST", 0x0000000A, 0xFFFF0F0F, 1⟩, ⟨"INS", 0x0000000B, 0x0000000F, 1⟩,
   ⟨"MBCAST", 0x0000000C, 0x0000000F, 1⟩, ⟨"SLL", 0x0000000D, 0x0000F00F, 1⟩,
   ⟨"SRL", 0x0000000E, 0x0000F00F, 1⟩]

/-- The word is the command of the row: `w & mask = match` (R86). -/
def OpcodeRow.hits (r : OpcodeRow) (w : Word) : Bool := w &&& r.mask == r.pattern

/-! ### Encoding -/

/-- The two payload words of an address, low word first (R85). -/
def wordsOfAddr (addr : Addr) : List Word := [addr.extractLsb' 0 32, addr.extractLsb' 32 32]

/-- The words of a command: the command word, then its payload (R81, R82, R86). -/
def encode : Instr → List Word
  | .setr vd e => commandWord 1 vd 0 0 0 :: e
  | .loadu vd addr => commandWord 2 vd 0 0 0 :: wordsOfAddr addr
  | .storeu vs1 addr => commandWord 3 0 vs1 0 0 :: wordsOfAddr addr
  | .vxor vd vs1 vs2 => [commandWord 4 vd vs1 vs2 0]
  | .vor vd vs1 vs2 => [commandWord 5 vd vs1 vs2 0]
  | .vand vd vs1 vs2 => [commandWord 6 vd vs1 vs2 0]
  | .aesrnd vd vs1 vs2 => [commandWord 7 vd vs1 vs2 0]
  | .shuf vd vs1 vs2 ctl => [commandWord 8 vd vs1 vs2 ctl.toNat]
  | .extr xd vs1 idx => [commandWord 9 xd vs1 0 idx.toNat]
  | .bcast vd xs2 => [commandWord 10 vd 0 xs2 0]
  | .ins vd vs1 xs2 idx => [commandWord 11 vd vs1 xs2 idx.toNat]
  | .mbcast vd vs1 xs2 mask => [commandWord 12 vd vs1 xs2 mask.toNat]
  | .sll vd vs1 cnt => [commandWord 13 vd vs1 0 cnt.toNat]
  | .srl vd vs1 cnt => [commandWord 14 vd vs1 0 cnt.toNat]

/-! ### Pseudo-instructions (R93) -/

/-- `VMOV Vd, Vs` expands to `VOR Vd, Vs, Vs`. -/
def pseudoVmov (vd vs : VReg) : Instr := .vor vd vs vs

/-- `VZERO Vd` expands to `SETR Vd, {0, ..., 0}`. -/
def pseudoVzero (vd : VReg) : Instr := .setr vd (List.replicate 16 0)

/-- A signed element of `SETR`, `-2^31 <= n <= 2^31 - 1`, as its payload word: a negative `n` is carried as
`n + 2^32` (R85). -/
def signedElem (n : Int) : Word := BitVec.ofInt 32 n

/-! ### The host's numbering of a row's bits -/

/-- The words of an instruction whose bits are `w`, bit 0 the least significant bit of the first word; every bit
from `nbits` up is 0, as far as the longest command. -/
def tableWords (nbits w : Nat) : List Word :=
  (List.range 17).map fun k => BitVec.ofNat 32 ((w % 2 ^ nbits) >>> (32 * k))

/-- What the decoder reads from those words. -/
def decodeTableWord (nbits w : Nat) : Option Instr :=
  match decode (tableWords nbits w) with
  | .ok (i, _) => some i
  | .error _ => none

end Sys2Proof
end

