-- ==== Sys2Proof/Machine/HostPort.lean ====
section
/-! DEFINITION. What the outside world sees of the block and can do to it (00_scope.md R9; 10_state.md R33;
60_exceptions.md R225, R232, R233). These are functions on State, not steps: the step is the block's own. -/

namespace Sys2Proof.Machine

/-- The output `fault_irq`, equal to `FSTAT.FAULT` at all times (R225). -/
def State.faultIrq (s : State) : Bool := fstatFault s.fstat

/-- The output `idle`: `pc = N` and `FSTAT.FAULT = 0` (R232). -/
def State.idle (s : State) : Bool := s.pc.toNat == s.cmd.length && !fstatFault s.fstat

/-- A read of the status port, zero-extended to 64 bits: index 0 `FSTAT`, 1 `FPC`, 2 `FADDR`, 3 `pc`; no other index
exists (R30 to R33; log entry 12). -/
def State.statusRead (s : State) (index : Nat) : Option (BitVec 64) :=
  match index with
  | 0 => some (s.fstat.setWidth 64)
  | 1 => some (s.fpc.setWidth 64)
  | 2 => some s.faddr
  | 3 => some (s.pc.setWidth 64)
  | _ => none

/-- The command port: the host delivers words, which continue the stream (R94, R97). Words offered to a halted block are
not accepted (R227). -/
def State.deliver (s : State) (ws : List Word) : State :=
  if s.faultIrq then s else { s with cmd := s.cmd ++ ws }

/-- Another agent writes the byte at `a` between two commands (R61, R63). -/
def State.otherAgentWrite (s : State) (a : Nat) (b : Byte) : State :=
  if s.memValid a then s.setMem (s.mem.write a b) else s

/-- The reset event while the command at `pc` executes, after `k` lane accesses: a store has written its first `k` lanes
(fewer if an access was answered "error"), any other command has had no effect that a reset keeps (R260,
93_implementation_defined.md U8; log entry 11). -/
def State.resetDuringStore (s : State) (k : Nat) : State :=
  if s.faultIrq then s.resetEvent
  else
    match decode s.fetch with
    | .ok (.storeu vs1 addr, _) =>
      if windowFits addr then (storeLanes (s.readV vs1) addr.toNat (laneOrder.take k) s).1.resetEvent
      else s.resetEvent
    | _ => s.resetEvent

end Sys2Proof.Machine
end

