-- ==== Sys2Proof/Machine/Sequencer.lean ====
section
/-! DEFINITION. The sequencer: one step of the block (30_encoding.md R94). -/

namespace Sys2Proof.Machine

/-- One step (R94). Halted and ended runs take no step (R227, R97); an illegal word raises `Fault(1, 0)` before its
payload is awaited (R90, R221); a truncated command is stuck (R96); a legal command executes. A stream of 2^32 words or
more is refused (R28, 93_implementation_defined.md U9). -/
def sequencerStep (s : State) : Host.Outcome State Fault Refusal :=
  if 2 ^ 32 ≤ s.cmd.length then .refused .streamTooLong
  else if s.faultIrq then .fault .halted
  else if s.pc.toNat = s.cmd.length then .fault .endOfRun
  else
    match decode s.fetch with
    | .ok (i, _) => exec i s
    | .error .reservedOpcode => .next (s.raiseFault .illegalCommand 0)
    | .error .reservedField => .next (s.raiseFault .illegalCommand 0)
    | .error .truncated => .fault .truncatedCommand
    | .error .noCommandWord => .fault .pcBeyondStream

/-- The stream `cmd` with the words `ws` put at index `p`; a stream that ends before `p` is filled up with zero words. -/
def placeWords (cmd : List Word) (p : Nat) (ws : List Word) : List Word :=
  cmd.take p ++ List.replicate (p - cmd.length) 0 ++ ws ++ cmd.drop (p + ws.length)

/-- The words of the instruction that `w` numbers, as many as its `op` gives it. -/
def fetchWords (nbits w : Nat) : List Word :=
  (tableWords nbits w).take (lengthOfOp (opField (BitVec.ofNat 32 (w % 2 ^ nbits))))

end Sys2Proof.Machine
end

