-- ==== Sys2Proof/Machine/Step.lean ====
section
/-! DEFINITION. The step of the machine, and the placing of one instruction where it is fetched. -/

namespace Sys2Proof.Machine

/-- One step of the block (R94). -/
def step (s : State) : Host.Outcome State Fault Refusal := sequencerStep s

/-- `s` with the words of one instruction standing in the command stream at `pc`, the place the sequencer fetches from,
as if the host had delivered them there (log entry 6). Nothing else changes; a halted block stays halted. -/
def State.withFetchWord (s : State) (nbits w : Nat) : State :=
  { s with cmd := placeWords s.cmd s.pc.toNat (fetchWords nbits w) }

end Sys2Proof.Machine
end

