-- ==== Sys2Proof/Safety.lean ====
section
/-! DEFINITION. The terms claims are stated in: the invariant of the machine, a run standing at a command word, what a command
leaves unchanged, what a reset leaves, and the states of runs. -/

namespace Sys2Proof.Machine

/-! ### The invariant -/

/-- The fault registers before a fault: all zero (R30 to R32, 93_implementation_defined.md U6). -/
def NoFaultRecorded (s : State) : Prop := s.fstat = 0 ∧ s.fpc = 0 ∧ s.faddr = 0

/-- The fault registers after a fault: `FSTAT` is 3, 5 or 7 with its reserved bits zero, `FPC` is `pc`, which no longer
moves, and `FADDR` is 0 for an illegal command (R30 to R32, R220, R227). -/
def FaultRecorded (s : State) : Prop :=
  (s.fstat = 3 ∧ s.faddr = 0 ∨ s.fstat = 5 ∨ s.fstat = 7) ∧ s.fpc = s.pc

/-- What every reachable state satisfies: memory is in canonical form, the stream has fewer than 2^32 words and `pc` is an
index of it or its end (R28), and the fault registers record no fault or one fault. -/
def StateInv (s : State) : Prop :=
  s.mem.wf = true ∧ s.cmd.length < 2 ^ 32 ∧ s.pc.toNat ≤ s.cmd.length ∧ (NoFaultRecorded s ∨ FaultRecorded s)

/-! ### Where a run stands -/

/-- The block is not halted and the sequencer stands at the command word `w` of a stream that the spec gives a meaning
(R28, R94). -/
def AtCommand (s : State) (w : Word) : Prop :=
  s.cmd.length < 2 ^ 32 ∧ s.faultIrq = false ∧ s.cmd[s.pc.toNat]? = some w

/-- No row of the opcode map is the command of `w` (R86 to R88). -/
def IllegalWord (w : Word) : Prop := ∀ r ∈ opcodeRows, r.hits w = false

/-! ### Frames -/

/-- Every vector register is unchanged. -/
def SameV (s t : State) : Prop := ∀ r, t.readV r = s.readV r

/-- Every lane register is unchanged. -/
def SameX (s t : State) : Prop := ∀ r, t.readX r = s.readX r

/-- Every byte of memory is unchanged. -/
def SameMem (s t : State) : Prop := ∀ a, t.readByte a = s.readByte a

/-- The fault registers are unchanged. -/
def SameFaultRegs (s t : State) : Prop := t.fstat = s.fstat ∧ t.fpc = s.fpc ∧ t.faddr = s.faddr

/-- `MEM_VALID`, the command stream and the count of resets are unchanged. -/
def SameRun (s t : State) : Prop := t.holes = s.holes ∧ t.cmd = s.cmd ∧ t.resets = s.resets

/-- A command that writes `V[r]` and advances by `n` words changes nothing else. -/
def OnlyV (s t : State) (r : VReg) (n : Nat) : Prop :=
  t.pc = s.pc + BitVec.ofNat 32 n ∧ (∀ q, q ≠ r → t.readV q = s.readV q) ∧ SameX s t ∧ SameMem s t ∧
    SameFaultRegs s t ∧ SameRun s t

/-- A command that writes `X[r]` and advances by `n` words changes nothing else. -/
def OnlyX (s t : State) (r : XReg) (n : Nat) : Prop :=
  t.pc = s.pc + BitVec.ofNat 32 n ∧ (∀ q, q ≠ r → t.readX q = s.readX q) ∧ SameV s t ∧ SameMem s t ∧
    SameFaultRegs s t ∧ SameRun s t

/-- A command that writes memory and advances by `n` words changes no register and no fault register. -/
def OnlyMem (s t : State) (n : Nat) : Prop :=
  t.pc = s.pc + BitVec.ofNat 32 n ∧ SameV s t ∧ SameX s t ∧ SameFaultRegs s t ∧ SameRun s t

/-- The fault registers record a fault of code `code` at the command of `s`, with the address `a`, and nothing but memory
may have changed besides them (R227). -/
def FaultEntered (s t : State) (code : Nat) (a : Addr) : Prop :=
  t.fstat = BitVec.ofNat 32 (1 + code * 2) ∧ t.fpc = s.pc ∧ t.faddr = a ∧ t.faultIrq = true ∧ t.pc = s.pc ∧
    SameV s t ∧ SameX s t ∧ SameRun s t

/-- Memory after the first `n` bytes of the vector `w` have been stored at `addr`: those bytes and no other. -/
def Stored (s t : State) (w : WideVector) (addr n : Nat) : Prop :=
  ∀ a, t.readByte a = if addr ≤ a ∧ a < addr + n then vecByte w (a - addr) else s.readByte a

/-- At this command word the block faults with cause 1 and `FADDR = 0`, whatever follows the word in the stream, and no
register and no byte of memory changes (R221, R227). -/
def FaultsIllegal (w : Word) : Prop :=
  ∀ s, AtCommand s w → ∃ t, step s = .next t ∧ FaultEntered s t 1 0 ∧ SameMem s t

/-- All 64 bytes of the window at `addr` are valid, so that none of them lies beyond the address space (R58, R59). -/
def WindowValid (s : State) (addr : Nat) : Prop := ∀ j, j < 64 → s.memValid (addr + j) = true

/-- Lane `k` is the first of the window at `addr` whose access the memory port answers "error" (R54, R58). -/
def FirstError (s : State) (addr : Nat) (k : Fin 4) : Prop :=
  (∃ j, j < 16 ∧ s.memValid (addr + 16 * k.val + j) = false) ∧ ∀ j, j < 16 * k.val → s.memValid (addr + j) = true

/-- `t` is `s` after a reset, but for memory: the control registers 0, the stream empty, every register holding the free
value of this reset, `MEM_VALID` unchanged (R37, R260; log entries 1 to 3). -/
def AsResetLeaves (s t : State) : Prop :=
  t.pc = 0 ∧ t.fstat = 0 ∧ t.fpc = 0 ∧ t.faddr = 0 ∧ t.cmd = [] ∧ t.holes = s.holes ∧ t.resets = s.resets + 1 ∧
    (∀ r, t.readV r = Config.vReset (s.resets + 1) r) ∧ ∀ r, t.readX r = Config.xReset (s.resets + 1) r

/-! ### Runs -/

/-- The states of the runs of the block on every platform: from reset with any memory and any `MEM_VALID`, by steps and by
the moves of the outside world (R8, R9, R94, R233). A delivery keeps the stream below 2^32 words (R28). -/
inductive Reachable : State → Prop where
  | start (m : Memory) (holes : List AddrRange) (hm : m.wf = true) :
      Reachable { State.reset with mem := m, holes := holes }
  | step (s t : State) (hs : Reachable s) (h : step s = .next t) : Reachable t
  | deliver (s : State) (ws : List Word) (hs : Reachable s) (h : s.cmd.length + ws.length < 2 ^ 32) :
      Reachable (s.deliver ws)
  | otherAgentWrite (s : State) (a : Nat) (b : Byte) (hs : Reachable s) : Reachable (s.otherAgentWrite a b)
  | reset (s : State) (hs : Reachable s) : Reachable s.resetEvent
  | resetDuring (s : State) (k : Nat) (hs : Reachable s) : Reachable (s.resetDuringStore k)

/-! ### Destinations and operands -/

/-- The register that a command names as its destination in the vector file (R22). -/
def destV : Instr → Option VReg
  | .setr vd _ => some vd
  | .loadu vd _ => some vd
  | .storeu _ _ => none
  | .vxor vd _ _ => some vd
  | .vor vd _ _ => some vd
  | .vand vd _ _ => some vd
  | .aesrnd vd _ _ => some vd
  | .shuf vd _ _ _ => some vd
  | .extr _ _ _ => none
  | .bcast vd _ => some vd
  | .ins vd _ _ _ => some vd
  | .mbcast vd _ _ _ => some vd
  | .sll vd _ _ => some vd
  | .srl vd _ _ => some vd

/-- The register that a command names as its destination in the lane file: only `EXTR` has one (R23). -/
def destX : Instr → Option XReg
  | .setr _ _ => none
  | .loadu _ _ => none
  | .storeu _ _ => none
  | .vxor _ _ _ => none
  | .vor _ _ _ => none
  | .vand _ _ _ => none
  | .aesrnd _ _ _ => none
  | .shuf _ _ _ _ => none
  | .extr xd _ _ => some xd
  | .bcast _ _ => none
  | .ins _ _ _ _ => none
  | .mbcast _ _ _ _ => none
  | .sll _ _ _ => none
  | .srl _ _ _ => none

/-- Two states hold the same operands of a command: registers, memory, `MEM_VALID`, `pc`. They may differ in the fault
registers, the stream and the count of resets (R14, R29). -/
def SameOperands (s t : State) : Prop :=
  t.v = s.v ∧ t.x = s.x ∧ t.mem = s.mem ∧ t.holes = s.holes ∧ t.pc = s.pc

end Sys2Proof.Machine
end

