-- ==== Sys2Proof/Certificates/Slice0/Obligations.lean ====
section
/-! DEFINITION. The statements for the provers, from the numbered rules of spec/. -/

open Sys2Proof Sys2Proof.Machine

/-! ### Reset -/

/-- 10_state.md section 9, 70_reset_and_hazards.md section 1: after the first reset and after every reset event the control
registers are 0, the stream is empty, `idle` is 1 and `fault_irq` 0; the reset event leaves memory alone. -/
def Obligations.ResetClearsControlState : Prop :=
  (State.reset.pc = 0 ∧ State.reset.fstat = 0 ∧ State.reset.fpc = 0 ∧ State.reset.faddr = 0 ∧ State.reset.cmd = [] ∧
    State.reset.idle = true ∧ State.reset.faultIrq = false) ∧
  ∀ s : State, s.resetEvent.pc = 0 ∧ s.resetEvent.fstat = 0 ∧ s.resetEvent.fpc = 0 ∧ s.resetEvent.faddr = 0 ∧
    s.resetEvent.cmd = [] ∧ s.resetEvent.idle = true ∧ s.resetEvent.faultIrq = false ∧
    SameMem s s.resetEvent ∧ s.resetEvent.holes = s.holes

/-- The state after reset satisfies the invariant (its empty memory is the model's choice, log entry 4). -/
def Obligations.ResetStateSatisfiesInv : Prop := StateInv State.reset

/-- The reset event keeps the invariant. -/
def Obligations.ResetEventKeepsInv : Prop := ∀ s : State, StateInv s → StateInv s.resetEvent

/-! ### The invariant -/

/-- Every step keeps the invariant: canonical memory, `pc` within a stream of fewer than 2^32 words (R28), and fault
registers that record no fault or exactly one fault of causes 1 to 3 at `pc` (R30 to R32, R220, R227). -/
def Obligations.StepKeepsInv : Prop := ∀ s t : State, StateInv s → step s = .next t → StateInv t

/-- The other moves of the outside world keep the invariant: a delivery that leaves the stream below 2^32 words, a write of
another agent between two commands, and a reset after any number of lane accesses of the command at `pc` (log entries 6,
10, 11). -/
def Obligations.OutsideMovesKeepInv : Prop :=
  ∀ s : State, StateInv s →
    (∀ ws : List Word, s.cmd.length + ws.length < 2 ^ 32 → StateInv (s.deliver ws)) ∧
    (∀ (a : Nat) (b : Byte), StateInv (s.otherAgentWrite a b)) ∧
    ∀ k : Nat, StateInv (s.resetDuringStore k)

/-- Every state that a run reaches satisfies the invariant: from reset with any memory in canonical form and any
`MEM_VALID` (log entries 4 and 5), by steps, deliveries, writes of other agents and resets. -/
def Obligations.ReachableStatesSatisfyInv : Prop := ∀ s : State, Reachable s → StateInv s

/-! ### Encoding -/

/-- Decoding the words of a well-formed command gives the command back and leaves what follows (30_encoding.md sections 1
to 3), for every operand value. -/
def Obligations.DecodeEncodeRoundTrip : Prop :=
  ∀ (i : Instr) (rest : List Word), i.WellFormed → decode (encode i ++ rest) = .ok (i, rest)

/-- What decodes is well formed, and encoding it gives back the words it was decoded from: no bit of a legal command is
dropped, the ignored bits of an immediate among them. -/
def Obligations.EncodeDecodeRoundTrip : Prop :=
  ∀ (ws rest : List Word) (i : Instr), decode ws = .ok (i, rest) → i.WellFormed ∧ encode i ++ rest = ws

/-- R86: a word decodes as the command of a row exactly when `w & mask = match`, the rows are disjoint, and a word that
matches no row is illegal. -/
def Obligations.OpcodeMapMatchesDecoder : Prop :=
  (∀ w : Word, ∀ r ∈ opcodeRows, ∀ q ∈ opcodeRows, r.hits w = true → q.hits w = true → r = q) ∧
  (∀ (w : Word) (ws rest : List Word) (i : Instr), decode (w :: ws) = .ok (i, rest) →
    ∃ r ∈ opcodeRows, r.hits w = true ∧ r.mnemonic = i.mnemonic ∧ r.length = i.words) ∧
  (∀ (w : Word) (ws : List Word), ∀ r ∈ opcodeRows, r.hits w = true → r.length ≤ (w :: ws).length →
    ∃ i rest, decode (w :: ws) = .ok (i, rest) ∧ i.mnemonic = r.mnemonic) ∧
  (∀ w : Word, IllegalWord w → FaultsIllegal w)

/-- A few command words of 95_test_vectors.md T90 and what they decode to. -/
def Obligations.KnownWordsDecode : Prop :=
  decode [0x00002134#32] = .ok (.vxor 3 1 2, []) ∧ decode [0x001b1048#32] = .ok (.shuf 4 0 1 0x001b, []) ∧
  decode [0x00060019#32] = .ok (.extr 1 0 6, []) ∧ decode [0xa5c3115c#32] = .ok (.mbcast 5 1 1 0xa5c3, []) ∧
  decode [0x00000503#32, 0x00002001#32, 0#32] = .ok (.storeu 5 0x2001, []) ∧
  decode [0x0000210f#32] = .error .reservedOpcode ∧ decode [0x00010014#32] = .error .reservedField

/-- R85: the payload of a load or store is its address, low word first; that of `SETR` is its sixteen elements in order;
every payload word is legal; a negative element `n` is carried as `n + 2^32`. -/
def Obligations.PayloadAssembly : Prop :=
  (∀ (r : Fin 16) (lo hi : Word) (rest : List Word), ∃ a : Addr, a.toNat = lo.toNat + hi.toNat * 2 ^ 32 ∧
    decode (commandWord 2 r 0 0 0 :: lo :: hi :: rest) = .ok (.loadu r a, rest) ∧
    decode (commandWord 3 0 r 0 0 :: lo :: hi :: rest) = .ok (.storeu r a, rest)) ∧
  (∀ (r : Fin 16) (e rest : List Word), e.length = 16 →
    decode (commandWord 1 r 0 0 0 :: (e ++ rest)) = .ok (.setr r e, rest)) ∧
  (∀ n : Int, -2 ^ 31 ≤ n → n < 2 ^ 31 →
    ((signedElem n).toNat : Int) = if n < 0 then n + 2 ^ 32 else n)

/-! ### Illegal words and the length of a command -/

/-- R87: `op` 0x0 and 0xF are illegal whatever the other bits; the all-zero and the all-ones word are such words. -/
def Obligations.ReservedOpcodesFault : Prop :=
  (∀ w : Word, (opField w).toNat = 0 ∨ (opField w).toNat = 15 → FaultsIllegal w) ∧
  FaultsIllegal 0x00000000 ∧ FaultsIllegal 0xFFFFFFFF

/-- R88: a non-zero bit in a reserved field is illegal, field by field. -/
def Obligations.ReservedFieldsFault : Prop :=
  ∀ w : Word,
    ((opField w).toNat = 1 ∨ (opField w).toNat = 2 → rs1Field w ≠ 0 ∨ rs2Field w ≠ 0 ∨ immField w ≠ 0 → FaultsIllegal w) ∧
    ((opField w).toNat = 3 → rdField w ≠ 0 ∨ rs2Field w ≠ 0 ∨ immField w ≠ 0 → FaultsIllegal w) ∧
    (4 ≤ (opField w).toNat ∧ (opField w).toNat ≤ 7 → immField w ≠ 0 → FaultsIllegal w) ∧
    ((opField w).toNat = 9 ∨ (opField w).toNat = 13 ∨ (opField w).toNat = 14 → rs2Field w ≠ 0 → FaultsIllegal w) ∧
    ((opField w).toNat = 10 → rs1Field w ≠ 0 ∨ immField w ≠ 0 → FaultsIllegal w) ∧
    ((opField w).toNat = 8 ∨ (opField w).toNat = 11 ∨ (opField w).toNat = 12 → ∀ ws, ∃ i, decode (w :: ws) = .ok (i, ws))

/-- R89: the result of `SHUF` does not depend on `imm16[15:8]`, nor that of `EXTR` and `INS` on `imm16[15:2]`, and any value
of those bits is legal. -/
def Obligations.IgnoredImmediateBits : Prop :=
  (∀ (vd vs1 vs2 : VReg) (c c' : Imm) (s : State), c.toNat % 256 = c'.toNat % 256 →
    exec (.shuf vd vs1 vs2 c) s = exec (.shuf vd vs1 vs2 c') s) ∧
  (∀ (xd : XReg) (vs1 : VReg) (c c' : Imm) (s : State), c.toNat % 4 = c'.toNat % 4 →
    exec (.extr xd vs1 c) s = exec (.extr xd vs1 c') s) ∧
  (∀ (vd vs1 : VReg) (xs2 : XReg) (c c' : Imm) (s : State), c.toNat % 4 = c'.toNat % 4 →
    exec (.ins vd vs1 xs2 c) s = exec (.ins vd vs1 xs2 c') s) ∧
  (∀ (w : Word) (ws : List Word),
    (opField w).toNat = 8 ∨ ((opField w).toNat = 9 ∧ rs2Field w = 0) ∨ (opField w).toNat = 11 →
    ∃ i, decode (w :: ws) = .ok (i, ws))

/-- R90: the length is 17 for `op` 1, 3 for `op` 2 and 3, else 1; an illegal word faults at once, even with no word after
it, and nothing of the stream is consumed. -/
def Obligations.LengthFromOpAndLegalityFirst : Prop :=
  (∀ (w : Word) (ws rest : List Word) (i : Instr), decode (w :: ws) = .ok (i, rest) →
    (w :: ws).length = rest.length + i.words ∧
    i.words = if (opField w).toNat = 1 then 17 else if (opField w).toNat = 2 ∨ (opField w).toNat = 3 then 3 else 1) ∧
  (∀ (s : State) (w : Word), AtCommand s w → IllegalWord w → s.pc.toNat + 1 = s.cmd.length →
    ∃ t, step s = .next t ∧ FaultEntered s t 1 0 ∧ SameMem s t) ∧
  ∀ w : Word, IllegalWord w → FaultsIllegal w

/-! ### The sequencer -/

/-- 30_encoding.md section 6: where the words at `pc` decode to a command, a step is the execution of that command. -/
def Obligations.StepRunsDecodedCommand : Prop :=
  ∀ (s : State) (i : Instr) (rest : List Word), s.cmd.length < 2 ^ 32 → s.faultIrq = false →
    decode (s.cmd.drop s.pc.toNat) = .ok (i, rest) → step s = exec i s

/-- 10_state.md section 4: a step that completes a command adds the command's length in words to `pc`, without wrap; a step
that faults leaves `pc`. -/
def Obligations.StepAdvancesByLength : Prop :=
  ∀ s t : State, step s = .next t →
    (t.faultIrq = true → t.pc = s.pc) ∧
    (t.faultIrq = false → ∃ i rest, decode (s.cmd.drop s.pc.toNat) = .ok (i, rest) ∧
      t.pc.toNat = s.pc.toNat + i.words ∧ t.pc.toNat ≤ s.cmd.length)

/-- R96: a legal command word whose payload the stream does not hold is stuck: no step, no fault, not idle; when the host
delivers enough words the command executes. -/
def Obligations.TruncatedCommandIsStuck : Prop :=
  ∀ (s : State) (w : Word), AtCommand s w → ¬ IllegalWord w → s.cmd.length < s.pc.toNat + lengthOfOp (opField w) →
    (∀ t, step s ≠ .next t) ∧ s.faultIrq = false ∧ s.idle = false ∧
    ∀ ws : List Word, s.pc.toNat + lengthOfOp (opField w) ≤ s.cmd.length + ws.length →
      s.cmd.length + ws.length < 2 ^ 32 →
      ∃ i rest, decode (w :: ((s.cmd.drop (s.pc.toNat + 1)) ++ ws)) = .ok (i, rest) ∧
        step (s.deliver ws) = exec i (s.deliver ws)

/-- 30_encoding.md R97 and 60_exceptions.md R232 in the model's terms (log entry 7): the run is over exactly when `pc = N`
with no fault; `idle` is then 1; words delivered later continue the stream at `pc`. -/
def Obligations.EndOfRun : Prop :=
  ∀ s : State, s.cmd.length < 2 ^ 32 →
    (step s = .fault .endOfRun ↔ s.idle = true) ∧
    (s.idle = true ↔ s.pc.toNat = s.cmd.length ∧ s.faultIrq = false) ∧
    ∀ (w : Word) (ws : List Word), s.idle = true → s.cmd.length + (w :: ws).length < 2 ^ 32 →
      AtCommand (s.deliver (w :: ws)) w

/-- A halted block takes no step and accepts no word; only the reset event clears the fault (60_exceptions.md section 5; the
name of the stop is the model's, log entry 7). -/
def Obligations.HaltedUntilReset : Prop :=
  ∀ s : State, s.cmd.length < 2 ^ 32 → s.faultIrq = true →
    step s = .fault .halted ∧ (∀ ws, s.deliver ws = s) ∧
    s.resetEvent.faultIrq = false ∧ s.resetEvent.pc = 0 ∧ s.resetEvent.cmd = []

/-- A stream of 2^32 words or more is not accepted (log entry 8). -/
def Obligations.LongStreamRefused : Prop :=
  ∀ s : State, 2 ^ 32 ≤ s.cmd.length → step s = .refused .streamTooLong

/-! ### Faults -/

/-- R227: what a step that raises a fault does. No fault was recorded before it. The fault is one of three: an illegal word
with cause 1 and address 0, memory unchanged; a `LOADU` with cause 2, memory unchanged; a `STOREU` with cause 3, memory
unchanged by the window check and changed by exactly the lanes before the first failing one otherwise. In each, `FSTAT`,
`FPC`, `FADDR` and `fault_irq` are as `FaultEntered` says, and `pc` and every register stay. No later step, no word
accepted. -/
def Obligations.FaultEntryIsPrecise : Prop :=
  ∀ s t : State, s.mem.wf = true → step s = .next t → t.faultIrq = true →
    s.faultIrq = false ∧
    ((∃ w, AtCommand s w ∧ IllegalWord w ∧ FaultEntered s t 1 0 ∧ SameMem s t) ∨
      (∃ vd addr rest, decode (s.cmd.drop s.pc.toNat) = .ok (.loadu vd addr, rest) ∧ SameMem s t ∧
        ((2 ^ 64 - 64 < addr.toNat ∧ FaultEntered s t 2 addr) ∨
          ∃ k, addr.toNat ≤ 2 ^ 64 - 64 ∧ FirstError s addr.toNat k ∧
            FaultEntered s t 2 (addr + BitVec.ofNat 64 (16 * k.val)))) ∨
      ∃ vs1 addr rest, decode (s.cmd.drop s.pc.toNat) = .ok (.storeu vs1 addr, rest) ∧
        ((2 ^ 64 - 64 < addr.toNat ∧ FaultEntered s t 3 addr ∧ SameMem s t) ∨
          ∃ k, addr.toNat ≤ 2 ^ 64 - 64 ∧ FirstError s addr.toNat k ∧
            FaultEntered s t 3 (addr + BitVec.ofNat 64 (16 * k.val)) ∧
            Stored s t (s.readV vs1) addr.toNat (16 * k.val))) ∧
    (∀ u, step t ≠ .next u) ∧ ∀ ws, t.deliver ws = t

/-- R220 and R224: a step faults only in the three ways, with the address recorded; and in each of them it does. -/
def Obligations.FaultCausesAndAddress : Prop :=
  (∀ s t : State, step s = .next t → t.faultIrq = true →
    (∃ w, AtCommand s w ∧ IllegalWord w ∧ FaultEntered s t 1 0) ∨
    (∃ vd addr rest, decode (s.cmd.drop s.pc.toNat) = .ok (.loadu vd addr, rest) ∧
      ((2 ^ 64 - 64 < addr.toNat ∧ FaultEntered s t 2 addr) ∨
        ∃ k, addr.toNat ≤ 2 ^ 64 - 64 ∧ FirstError s addr.toNat k ∧ FaultEntered s t 2 (addr + BitVec.ofNat 64 (16 * k.val)))) ∨
    (∃ vs1 addr rest, decode (s.cmd.drop s.pc.toNat) = .ok (.storeu vs1 addr, rest) ∧
      ((2 ^ 64 - 64 < addr.toNat ∧ FaultEntered s t 3 addr) ∨
        ∃ k, addr.toNat ≤ 2 ^ 64 - 64 ∧ FirstError s addr.toNat k ∧ FaultEntered s t 3 (addr + BitVec.ofNat 64 (16 * k.val))))) ∧
  (∀ (s : State) (w : Word), AtCommand s w → IllegalWord w → ∃ t, step s = .next t ∧ FaultEntered s t 1 0) ∧
  ∀ (s : State) (r : VReg) (addr : Addr) (rest : List Word), s.cmd.length < 2 ^ 32 → s.faultIrq = false →
    (decode (s.cmd.drop s.pc.toNat) = .ok (.loadu r addr, rest) →
      (2 ^ 64 - 64 < addr.toNat → ∃ t, step s = .next t ∧ FaultEntered s t 2 addr) ∧
      ∀ k, addr.toNat ≤ 2 ^ 64 - 64 → FirstError s addr.toNat k →
        ∃ t, step s = .next t ∧ FaultEntered s t 2 (addr + BitVec.ofNat 64 (16 * k.val))) ∧
    (decode (s.cmd.drop s.pc.toNat) = .ok (.storeu r addr, rest) →
      (2 ^ 64 - 64 < addr.toNat → ∃ t, step s = .next t ∧ FaultEntered s t 3 addr) ∧
      ∀ k, addr.toNat ≤ 2 ^ 64 - 64 → FirstError s addr.toNat k →
        ∃ t, step s = .next t ∧ FaultEntered s t 3 (addr + BitVec.ofNat 64 (16 * k.val)))

/-- R132: a window that passes the top of the address space faults before any access, with cause 2 or 3 and
`FADDR = addr`. -/
def Obligations.WindowCheckFaults : Prop :=
  ∀ (r : VReg) (addr : Addr) (s : State), 2 ^ 64 - 64 < addr.toNat →
    (∃ t, exec (.loadu r addr) s = .next t ∧ FaultEntered s t 2 addr ∧ SameMem s t) ∧
    ∃ t, exec (.storeu r addr) s = .next t ∧ FaultEntered s t 3 addr ∧ SameMem s t

/-- R133: a store whose lane `k` is the first answered "error" has written exactly the bytes
`addr .. addr + 16*k - 1`. -/
def Obligations.PartialStore : Prop :=
  ∀ (vs1 : VReg) (addr : Addr) (k : Fin 4) (s : State), s.mem.wf = true → addr.toNat ≤ 2 ^ 64 - 64 →
    FirstError s addr.toNat k →
    ∃ t, exec (.storeu vs1 addr) s = .next t ∧ FaultEntered s t 3 (addr + BitVec.ofNat 64 (16 * k.val)) ∧
      Stored s t (s.readV vs1) addr.toNat (16 * k.val)

/-! ### The commands, rule by rule -/

/-- R120, `SETR`: encoding, result by elements and by bytes, frame, the illegal forms, and the stuck form. -/
def Obligations.SetrRule : Prop :=
  (∀ (vd : VReg) (e : List Word), encode (.setr vd e) = BitVec.ofNat 32 (0x1 + vd.val * 16) :: e) ∧
  (∀ w : Word, (opField w).toNat = 1 → rs1Field w ≠ 0 ∨ rs2Field w ≠ 0 ∨ immField w ≠ 0 → FaultsIllegal w) ∧
  (∀ (s : State) (w : Word), AtCommand s w → (opField w).toNat = 1 → ¬ IllegalWord w →
    s.cmd.length < s.pc.toNat + 17 → (∀ t, step s ≠ .next t) ∧ s.faultIrq = false) ∧
  ∀ (vd : VReg) (e : List Word) (s : State), e.length = 16 →
    ∃ t, exec (.setr vd e) s = .next t ∧ OnlyV s t vd 17 ∧
      (∀ (k : Fin 4) (p : Nat), p < 4 → e[4 * k.val + p]? = some (laneElem (vecLane (t.readV vd) k) p)) ∧
      ∀ i j x, i < 16 → j < 4 → e[i]? = some x → vecByte (t.readV vd) (4 * i + j) = x.extractLsb' (8 * j) 8

/-- R130, `LOADU`: encoding, the completed load with its frame, the three faults. -/
def Obligations.LoaduRule : Prop :=
  (∀ (vd : VReg) (addr : Addr), encode (.loadu vd addr) =
    [BitVec.ofNat 32 (0x2 + vd.val * 16), BitVec.ofNat 32 addr.toNat, BitVec.ofNat 32 (addr.toNat / 2 ^ 32)]) ∧
  (∀ w : Word, (opField w).toNat = 2 → rs1Field w ≠ 0 ∨ rs2Field w ≠ 0 ∨ immField w ≠ 0 → FaultsIllegal w) ∧
  ∀ (vd : VReg) (addr : Addr) (s : State),
    (WindowValid s addr.toNat → ∃ t, exec (.loadu vd addr) s = .next t ∧ OnlyV s t vd 3 ∧
      ∀ (k : Fin 4) (j : Nat), j < 16 →
        laneByte (vecLane (t.readV vd) k) j = s.readByte (addr.toNat + 16 * k.val + j)) ∧
    (2 ^ 64 - 64 < addr.toNat → ∃ t, exec (.loadu vd addr) s = .next t ∧ FaultEntered s t 2 addr ∧ SameMem s t) ∧
    ∀ k : Fin 4, addr.toNat ≤ 2 ^ 64 - 64 → FirstError s addr.toNat k →
      ∃ t, exec (.loadu vd addr) s = .next t ∧ FaultEntered s t 2 (addr + BitVec.ofNat 64 (16 * k.val)) ∧ SameMem s t

/-- R131, `STOREU`: encoding, the completed store with its frame over every byte of memory, the three faults. -/
def Obligations.StoreuRule : Prop :=
  (∀ (vs1 : VReg) (addr : Addr), encode (.storeu vs1 addr) =
    [BitVec.ofNat 32 (0x3 + vs1.val * 256), BitVec.ofNat 32 addr.toNat, BitVec.ofNat 32 (addr.toNat / 2 ^ 32)]) ∧
  (∀ w : Word, (opField w).toNat = 3 → rdField w ≠ 0 ∨ rs2Field w ≠ 0 ∨ immField w ≠ 0 → FaultsIllegal w) ∧
  ∀ (vs1 : VReg) (addr : Addr) (s : State), s.mem.wf = true →
    (WindowValid s addr.toNat → ∃ t, exec (.storeu vs1 addr) s = .next t ∧ OnlyMem s t 3 ∧
      Stored s t (s.readV vs1) addr.toNat 64) ∧
    (2 ^ 64 - 64 < addr.toNat → ∃ t, exec (.storeu vs1 addr) s = .next t ∧ FaultEntered s t 3 addr ∧ SameMem s t) ∧
    ∀ k : Fin 4, addr.toNat ≤ 2 ^ 64 - 64 → FirstError s addr.toNat k →
      ∃ t, exec (.storeu vs1 addr) s = .next t ∧ FaultEntered s t 3 (addr + BitVec.ofNat 64 (16 * k.val)) ∧
        Stored s t (s.readV vs1) addr.toNat (16 * k.val)

/-- R150, `VXOR`: encoding, illegal form, result by lanes and by bytes, frame. -/
def Obligations.VxorRule : Prop :=
  (∀ vd vs1 vs2 : VReg, encode (.vxor vd vs1 vs2) =
    [BitVec.ofNat 32 (0x4 + vd.val * 2 ^ 4 + vs1.val * 2 ^ 8 + vs2.val * 2 ^ 12)]) ∧
  (∀ w : Word, (opField w).toNat = 4 → immField w ≠ 0 → FaultsIllegal w) ∧
  ∀ (vd vs1 vs2 : VReg) (s : State), ∃ t, exec (.vxor vd vs1 vs2) s = .next t ∧ OnlyV s t vd 1 ∧
    (∀ k, vecLane (t.readV vd) k = vecLane (s.readV vs1) k ^^^ vecLane (s.readV vs2) k) ∧
    (∀ j, j < 64 → vecByte (t.readV vd) j = vecByte (s.readV vs1) j ^^^ vecByte (s.readV vs2) j) ∧
    (vs1 = vs2 → ∀ j, j < 64 → vecByte (t.readV vd) j = 0)

/-- R151, `VOR`: encoding, illegal form, result by lanes, frame; equal sources copy the register. -/
def Obligations.VorRule : Prop :=
  (∀ vd vs1 vs2 : VReg, encode (.vor vd vs1 vs2) =
    [BitVec.ofNat 32 (0x5 + vd.val * 2 ^ 4 + vs1.val * 2 ^ 8 + vs2.val * 2 ^ 12)]) ∧
  (∀ w : Word, (opField w).toNat = 5 → immField w ≠ 0 → FaultsIllegal w) ∧
  ∀ (vd vs1 vs2 : VReg) (s : State), ∃ t, exec (.vor vd vs1 vs2) s = .next t ∧ OnlyV s t vd 1 ∧
    (∀ k, vecLane (t.readV vd) k = vecLane (s.readV vs1) k ||| vecLane (s.readV vs2) k) ∧
    (vs1 = vs2 → t.readV vd = s.readV vs1)

/-- R152, `VAND`: encoding, illegal form, result by lanes, frame; equal sources copy the register. -/
def Obligations.VandRule : Prop :=
  (∀ vd vs1 vs2 : VReg, encode (.vand vd vs1 vs2) =
    [BitVec.ofNat 32 (0x6 + vd.val * 2 ^ 4 + vs1.val * 2 ^ 8 + vs2.val * 2 ^ 12)]) ∧
  (∀ w : Word, (opField w).toNat = 6 → immField w ≠ 0 → FaultsIllegal w) ∧
  ∀ (vd vs1 vs2 : VReg) (s : State), ∃ t, exec (.vand vd vs1 vs2) s = .next t ∧ OnlyV s t vd 1 ∧
    (∀ k, vecLane (t.readV vd) k = vecLane (s.readV vs1) k &&& vecLane (s.readV vs2) k) ∧
    (vs1 = vs2 → t.readV vd = s.readV vs1)

/-- 42_bitwise.md, Laws: each of the three commands is commutative in its sources and associative over two commands. -/
def Obligations.BitwiseCommandsCommuteAndAssociate : Prop :=
  (∀ (vd a b : VReg) (s : State), exec (.vxor vd a b) s = exec (.vxor vd b a) s ∧
    exec (.vor vd a b) s = exec (.vor vd b a) s ∧ exec (.vand vd a b) s = exec (.vand vd b a) s) ∧
  ∀ mk ∈ [Instr.vxor, Instr.vor, Instr.vand], ∀ (vd vt a b c : VReg) (s : State), vt ≠ a → vt ≠ c →
    ∃ p q t u, exec (mk vt a b) s = .next p ∧ exec (mk vd vt c) p = .next q ∧
      exec (mk vt b c) s = .next t ∧ exec (mk vd a vt) t = .next u ∧ q.readV vd = u.readV vd

/-- `AESRND` (43_aes.md, The command): encoding, illegal form, one round on each lane pair, frame. The round itself is
general knowledge of the spec's writer ("[from general knowledge, not in source]", 43_aes.md, The per-lane transform). -/
def Obligations.AesrndAppliesRoundPerLane : Prop :=
  (∀ vd vs1 vs2 : VReg, encode (.aesrnd vd vs1 vs2) =
    [BitVec.ofNat 32 (0x7 + vd.val * 2 ^ 4 + vs1.val * 2 ^ 8 + vs2.val * 2 ^ 12)]) ∧
  (∀ w : Word, (opField w).toNat = 7 → immField w ≠ 0 → FaultsIllegal w) ∧
  ∀ (vd vs1 vs2 : VReg) (s : State), ∃ t, exec (.aesrnd vd vs1 vs2) s = .next t ∧ OnlyV s t vd 1 ∧
    ∀ k, vecLane (t.readV vd) k = aesRound (vecLane (s.readV vs1) k) (vecLane (s.readV vs2) k)

/-- The round byte by byte (43_aes.md, The per-lane transform; general knowledge of the spec's writer): the four bytes of
column `c` from the substituted bytes of row `r`, column `(c + r) mod 4`, the column matrix, and the key byte. -/
def Obligations.AesRoundByBytes : Prop :=
  ∀ (l key : Lane) (c : Nat), c < 4 →
    ∀ s0 s1 s2 s3 : Byte, s0 = sbox (laneByte l (4 * c)) → s1 = sbox (laneByte l (1 + 4 * ((c + 1) % 4))) →
      s2 = sbox (laneByte l (2 + 4 * ((c + 2) % 4))) → s3 = sbox (laneByte l (3 + 4 * ((c + 3) % 4))) →
      laneByte (aesRound l key) (4 * c) = xtime s0 ^^^ (xtime s1 ^^^ s1) ^^^ s2 ^^^ s3 ^^^ laneByte key (4 * c) ∧
      laneByte (aesRound l key) (4 * c + 1) = s0 ^^^ xtime s1 ^^^ (xtime s2 ^^^ s2) ^^^ s3 ^^^ laneByte key (4 * c + 1) ∧
      laneByte (aesRound l key) (4 * c + 2) = s0 ^^^ s1 ^^^ xtime s2 ^^^ (xtime s3 ^^^ s3) ^^^ laneByte key (4 * c + 2) ∧
      laneByte (aesRound l key) (4 * c + 3) = (xtime s0 ^^^ s0) ^^^ s1 ^^^ s2 ^^^ xtime s3 ^^^ laneByte key (4 * c + 3)

/-- 43_aes.md, the round: substituting bytes and shifting rows commute. -/
def Obligations.SubBytesShiftRowsCommute : Prop := ∀ l : Lane, shiftRows (subBytes l) = subBytes (shiftRows l)

/-- 43_aes.md, SubBytes: the table is the affine map of the inverse in the field of 256 elements, with `inv 0 = 0`. -/
def Obligations.SboxIsAffineOfInverse : Prop :=
  ∃ inv : Byte → Byte, inv 0 = 0 ∧ (∀ b, b ≠ 0 → gfMul b (inv b) = 1) ∧ ∀ b, sbox b = sboxAffine (inv b)

/-- R180, `SHUF`: encoding, every word with `op = 8` legal, the asymmetric selection of lanes, frame. -/
def Obligations.ShufRule : Prop :=
  (∀ (vd vs1 vs2 : VReg) (ctl : Imm), encode (.shuf vd vs1 vs2 ctl) =
    [BitVec.ofNat 32 (0x8 + vd.val * 2 ^ 4 + vs1.val * 2 ^ 8 + vs2.val * 2 ^ 12 + ctl.toNat * 2 ^ 16)]) ∧
  (∀ (w : Word) (ws : List Word), (opField w).toNat = 8 →
    ∃ vd vs1 vs2 ctl, decode (w :: ws) = .ok (.shuf vd vs1 vs2 ctl, ws)) ∧
  ∀ (vd vs1 vs2 : VReg) (ctl : Imm) (s : State), ∃ t, exec (.shuf vd vs1 vs2 ctl) s = .next t ∧ OnlyV s t vd 1 ∧
    ∀ f0 f1 f2 f3 : Fin 4, f0.val = ctl.toNat % 4 → f1.val = ctl.toNat / 4 % 4 → f2.val = ctl.toNat / 16 % 4 →
      f3.val = ctl.toNat / 64 % 4 →
      vecLane (t.readV vd) 0 = vecLane (s.readV vs1) f0 ∧ vecLane (t.readV vd) 1 = vecLane (s.readV vs1) f1 ∧
      vecLane (t.readV vd) 2 = vecLane (s.readV vs2) f2 ∧ vecLane (t.readV vd) 3 = vecLane (s.readV vs2) f3

/-- R181, `EXTR`: encoding, illegal form, the selected lane, frame. -/
def Obligations.ExtrRule : Prop :=
  (∀ (xd : XReg) (vs1 : VReg) (idx : Imm), encode (.extr xd vs1 idx) =
    [BitVec.ofNat 32 (0x9 + xd.val * 2 ^ 4 + vs1.val * 2 ^ 8 + idx.toNat * 2 ^ 16)]) ∧
  (∀ w : Word, (opField w).toNat = 9 → rs2Field w ≠ 0 → FaultsIllegal w) ∧
  ∀ (xd : XReg) (vs1 : VReg) (idx : Imm) (s : State), ∃ t, exec (.extr xd vs1 idx) s = .next t ∧ OnlyX s t xd 1 ∧
    ∀ k : Fin 4, k.val = idx.toNat % 4 → t.readX xd = vecLane (s.readV vs1) k

/-- R182, `BCAST`: encoding, illegal forms, the same lane four times, frame. -/
def Obligations.BcastRule : Prop :=
  (∀ (vd : VReg) (xs2 : XReg), encode (.bcast vd xs2) =
    [BitVec.ofNat 32 (0xA + vd.val * 2 ^ 4 + xs2.val * 2 ^ 12)]) ∧
  (∀ w : Word, (opField w).toNat = 10 → rs1Field w ≠ 0 ∨ immField w ≠ 0 → FaultsIllegal w) ∧
  ∀ (vd : VReg) (xs2 : XReg) (s : State), ∃ t, exec (.bcast vd xs2) s = .next t ∧ OnlyV s t vd 1 ∧
    ∀ k, vecLane (t.readV vd) k = s.readX xs2

/-- R183, `INS`: encoding, every word with `op = 0xB` legal, one lane replaced and three kept, frame. -/
def Obligations.InsRule : Prop :=
  (∀ (vd vs1 : VReg) (xs2 : XReg) (idx : Imm), encode (.ins vd vs1 xs2 idx) =
    [BitVec.ofNat 32 (0xB + vd.val * 2 ^ 4 + vs1.val * 2 ^ 8 + xs2.val * 2 ^ 12 + idx.toNat * 2 ^ 16)]) ∧
  (∀ (w : Word) (ws : List Word), (opField w).toNat = 11 →
    ∃ vd vs1 xs2 idx, decode (w :: ws) = .ok (.ins vd vs1 xs2 idx, ws)) ∧
  ∀ (vd vs1 : VReg) (xs2 : XReg) (idx : Imm) (s : State), ∃ t, exec (.ins vd vs1 xs2 idx) s = .next t ∧ OnlyV s t vd 1 ∧
    ∀ k : Fin 4, vecLane (t.readV vd) k = if k.val = idx.toNat % 4 then s.readX xs2 else vecLane (s.readV vs1) k

/-- 44_lane.md, Laws of the lane multiplexer: extracting from a broadcast, and from an insert, in commands. -/
def Obligations.LaneMultiplexerLaws : Prop :=
  (∀ (va : VReg) (xs xt : XReg) (i : Imm) (s : State), ∃ t u, exec (.bcast va xs) s = .next t ∧
    exec (.extr xt va i) t = .next u ∧ u.readX xt = s.readX xs) ∧
  ∀ (va vb : VReg) (xs xt : XReg) (i j : Imm) (s : State), ∃ t u, exec (.ins va vb xs i) s = .next t ∧
    exec (.extr xt va j) t = .next u ∧
    (j.toNat % 4 = i.toNat % 4 → u.readX xt = s.readX xs) ∧
    ∀ k : Fin 4, k.val = j.toNat % 4 → j.toNat % 4 ≠ i.toNat % 4 → u.readX xt = vecLane (s.readV vb) k

/-- R201, `MBCAST`: encoding, every word with `op = 0xC` legal, the value of each element and the exclusive-or/and
algebra, the two extreme masks, frame. -/
def Obligations.MbcastRule : Prop :=
  (∀ (vd vs1 : VReg) (xs2 : XReg) (mask : Imm), encode (.mbcast vd vs1 xs2 mask) =
    [BitVec.ofNat 32 (0xC + vd.val * 2 ^ 4 + vs1.val * 2 ^ 8 + xs2.val * 2 ^ 12 + mask.toNat * 2 ^ 16)]) ∧
  (∀ (w : Word) (ws : List Word), (opField w).toNat = 12 →
    ∃ vd vs1 xs2 mask, decode (w :: ws) = .ok (.mbcast vd vs1 xs2 mask, ws)) ∧
  ∀ (vd vs1 : VReg) (xs2 : XReg) (mask : Imm) (s : State),
    ∃ t, exec (.mbcast vd vs1 xs2 mask) s = .next t ∧ OnlyV s t vd 1 ∧
      (∀ (k : Fin 4) (p : Nat), p < 4 → ∀ src x m : Word, src = laneElem (vecLane (s.readV vs1) k) p →
        x = laneElem (s.readX xs2) p → m = (if mask.getLsbD (4 * k.val + p) then 0xFFFFFFFF else 0x00000000) →
        laneElem (vecLane (t.readV vd) k) p = src ^^^ ((src ^^^ x) &&& m) ∧
        laneElem (vecLane (t.readV vd) k) p = if mask.getLsbD (4 * k.val + p) then x else src) ∧
      (mask = 0xFFFF → ∀ k, vecLane (t.readV vd) k = s.readX xs2) ∧
      (mask = 0x0000 → t.readV vd = s.readV vs1)

/-- R210, `SLL`: encoding, illegal form, every element shifted left, zero from 32 up, frame. -/
def Obligations.SllRule : Prop :=
  (∀ (vd vs1 : VReg) (cnt : Imm), encode (.sll vd vs1 cnt) =
    [BitVec.ofNat 32 (0xD + vd.val * 2 ^ 4 + vs1.val * 2 ^ 8 + cnt.toNat * 2 ^ 16)]) ∧
  (∀ w : Word, (opField w).toNat = 13 → rs2Field w ≠ 0 → FaultsIllegal w) ∧
  ∀ (vd vs1 : VReg) (cnt : Imm) (s : State), ∃ t, exec (.sll vd vs1 cnt) s = .next t ∧ OnlyV s t vd 1 ∧
    (∀ e, e < 16 → (vecElem (t.readV vd) e).toNat =
      if 32 ≤ cnt.toNat then 0 else (vecElem (s.readV vs1) e).toNat * 2 ^ cnt.toNat % 2 ^ 32) ∧
    (cnt = 0 → t.readV vd = s.readV vs1)

/-- R211, `SRL`: encoding, illegal form, every element shifted right, zero from 32 up, frame. -/
def Obligations.SrlRule : Prop :=
  (∀ (vd vs1 : VReg) (cnt : Imm), encode (.srl vd vs1 cnt) =
    [BitVec.ofNat 32 (0xE + vd.val * 2 ^ 4 + vs1.val * 2 ^ 8 + cnt.toNat * 2 ^ 16)]) ∧
  (∀ w : Word, (opField w).toNat = 14 → rs2Field w ≠ 0 → FaultsIllegal w) ∧
  ∀ (vd vs1 : VReg) (cnt : Imm) (s : State), ∃ t, exec (.srl vd vs1 cnt) s = .next t ∧ OnlyV s t vd 1 ∧
    (∀ e, e < 16 → (vecElem (t.readV vd) e).toNat =
      if 32 ≤ cnt.toNat then 0 else (vecElem (s.readV vs1) e).toNat / 2 ^ cnt.toNat) ∧
    (cnt = 0 → t.readV vd = s.readV vs1)

/-- 30_encoding.md section 5: `VMOV` copies a register with one word, `VZERO` clears one with seventeen, reading none. -/
def Obligations.PseudoInstructions : Prop :=
  (∀ (vd vs : VReg) (s : State), (encode (pseudoVmov vd vs)).length = 1 ∧
    ∃ t, exec (pseudoVmov vd vs) s = .next t ∧ OnlyV s t vd 1 ∧ t.readV vd = s.readV vs) ∧
  ∀ (vd : VReg) (s : State), (encode (pseudoVzero vd)).length = 17 ∧
    ∃ t, exec (pseudoVzero vd) s = .next t ∧ OnlyV s t vd 17 ∧ ∀ j, j < 64 → vecByte (t.readV vd) j = 0

/-! ### Laws over two commands that use memory -/

/-- 40_construct.md, Law: `SETR` then `STOREU` lays the elements out in index order, each with its least significant byte
at the lowest address. -/
def Obligations.SetrThenStore : Prop :=
  ∀ (vd : VReg) (e : List Word) (addr : Addr) (s : State), s.mem.wf = true → e.length = 16 → WindowValid s addr.toNat →
    ∃ t u, exec (.setr vd e) s = .next t ∧ exec (.storeu vd addr) t = .next u ∧
      ∀ i j x, i < 16 → j < 4 → e[i]? = some x → u.readByte (addr.toNat + 4 * i + j) = x.extractLsb' (8 * j) 8

/-- 41_loadstore.md, Law: `LOADU` then `STOREU` copies 64 bytes, overlapping windows included, and changes no other
byte. -/
def Obligations.StoreOfLoad : Prop :=
  ∀ (vd : VReg) (a b : Addr) (s : State), s.mem.wf = true → WindowValid s a.toNat → WindowValid s b.toNat →
    ∃ t u, exec (.loadu vd a) s = .next t ∧ exec (.storeu vd b) t = .next u ∧
      ∀ x, u.readByte x = if b.toNat ≤ x ∧ x < b.toNat + 64 then s.readByte (a.toNat + (x - b.toNat)) else s.readByte x

/-- 20_memory.md section 6, program order: a load sees the bytes of an earlier store byte by byte, and of two stores the
later one wins on the overlap. -/
def Obligations.ProgramOrderOfMemory : Prop :=
  (∀ (vs vd : VReg) (a b : Addr) (s : State), s.mem.wf = true → WindowValid s a.toNat → WindowValid s b.toNat →
    ∃ t u, exec (.storeu vs a) s = .next t ∧ exec (.loadu vd b) t = .next u ∧
      ∀ j, j < 64 → vecByte (u.readV vd) j =
        if a.toNat ≤ b.toNat + j ∧ b.toNat + j < a.toNat + 64 then vecByte (s.readV vs) (b.toNat + j - a.toNat)
        else s.readByte (b.toNat + j)) ∧
  ∀ (v1 v2 : VReg) (a b : Addr) (s : State), s.mem.wf = true → WindowValid s a.toNat → WindowValid s b.toNat →
    ∃ t u, exec (.storeu v1 a) s = .next t ∧ exec (.storeu v2 b) t = .next u ∧
      ∀ x, u.readByte x =
        if b.toNat ≤ x ∧ x < b.toNat + 64 then vecByte (s.readV v2) (x - b.toNat)
        else if a.toNat ≤ x ∧ x < a.toNat + 64 then vecByte (s.readV v1) (x - a.toNat) else s.readByte x

/-! ### Whole-machine rules -/

/-- 10_state.md sections 2 and 3: no command changes a register other than its own destination, and none but `EXTR`
changes a lane register. -/
def Obligations.OnlyDestinationRegisterChanges : Prop :=
  ∀ (i : Instr) (s t : State), exec i s = .next t →
    (∀ q, destV i ≠ some q → t.readV q = s.readV q) ∧ ∀ q, destX i ≠ some q → t.readX q = s.readX q

/-- 20_memory.md section 2, exact footprint: a byte of memory that a command changes lies in the window of a `STOREU`. -/
def Obligations.OnlyStoreWindowChanges : Prop :=
  ∀ (i : Instr) (s t : State) (a : Nat), s.mem.wf = true → exec i s = .next t → t.readByte a ≠ s.readByte a →
    ∃ vs1 addr, i = .storeu vs1 addr ∧ addr.toNat ≤ a ∧ a < addr.toNat + 64

/-- 00_scope.md section 5 and 10_state.md section 5: what a command does to registers, memory and `pc` does not depend on
the fault registers, the rest of the stream or anything else but its operands. -/
def Obligations.ResultsDependOnOperandsOnly : Prop :=
  ∀ (i : Instr) (s s' t : State), i.WellFormed → SameOperands s s' → exec i s = .next t →
    ∃ t', exec i s' = .next t' ∧ SameOperands t t' ∧
      (t.pc ≠ s.pc → SameFaultRegs s t ∧ SameFaultRegs s' t')

/-- Every well-formed command answers a next state from every state (60_exceptions.md section 1): it completes, or it is a
`LOADU` that enters a fault of cause 2, or a `STOREU` that enters one of cause 3, with the address of the window or of
its first failing lane; the other twelve always complete. -/
def Obligations.WellFormedCommandsAlwaysAnswer : Prop :=
  ∀ (i : Instr) (s : State), i.WellFormed → ∃ t, exec i s = .next t ∧
    ((t.pc = s.pc + BitVec.ofNat 32 i.words ∧ SameFaultRegs s t) ∨
      (∃ vd addr, i = .loadu vd addr ∧
        ((2 ^ 64 - 64 < addr.toNat ∧ FaultEntered s t 2 addr) ∨
          ∃ k, addr.toNat ≤ 2 ^ 64 - 64 ∧ FirstError s addr.toNat k ∧
            FaultEntered s t 2 (addr + BitVec.ofNat 64 (16 * k.val)))) ∨
      ∃ vs1 addr, i = .storeu vs1 addr ∧
        ((2 ^ 64 - 64 < addr.toNat ∧ FaultEntered s t 3 addr) ∨
          ∃ k, addr.toNat ≤ 2 ^ 64 - 64 ∧ FirstError s addr.toNat k ∧
            FaultEntered s t 3 (addr + BitVec.ofNat 64 (16 * k.val)))) ∧
    ((∀ r addr, i ≠ .loadu r addr ∧ i ≠ .storeu r addr) →
      t.pc = s.pc + BitVec.ofNat 32 i.words ∧ SameFaultRegs s t)

/-- 10_state.md section 6 and 60_exceptions.md sections 2 and 10: the status port and the two outputs; that no other index
answers is the model's choice (log entry 12). -/
def Obligations.StatusPort : Prop :=
  ∀ s : State, (s.statusRead 0 = some (s.fstat.setWidth 64) ∧ s.statusRead 1 = some (s.fpc.setWidth 64) ∧
    s.statusRead 2 = some s.faddr ∧ s.statusRead 3 = some (s.pc.setWidth 64) ∧ ∀ n, 3 < n → s.statusRead n = none) ∧
    (s.faultIrq = true ↔ s.fstat.toNat % 2 = 1) ∧
    (s.idle = true ↔ s.pc.toNat = s.cmd.length ∧ s.fstat.toNat % 2 = 0)

/-- 93_implementation_defined.md U8 in the model's terms (log entry 11): a reset after `k` lane accesses of the command at
`pc`. Everything but memory is as a reset leaves it. Memory holds the first `k` lanes of an interrupted `STOREU`, no more
than four and none from the first failing lane on; it is unchanged where the window passes the top of the address space,
where the command is another one, where the words at `pc` are no command, and where the block is halted. -/
def Obligations.ResetDuringStoreKeepsWholeLanes : Prop :=
  ∀ (s : State) (k : Nat), s.mem.wf = true →
    AsResetLeaves s (s.resetDuringStore k) ∧
    (s.faultIrq = true → SameMem s (s.resetDuringStore k)) ∧
    (∀ e, decode (s.cmd.drop s.pc.toNat) = .error e → SameMem s (s.resetDuringStore k)) ∧
    (∀ i rest, decode (s.cmd.drop s.pc.toNat) = .ok (i, rest) → (∀ vs1 addr, i ≠ .storeu vs1 addr) →
      SameMem s (s.resetDuringStore k)) ∧
    ∀ vs1 addr rest, s.faultIrq = false → decode (s.cmd.drop s.pc.toNat) = .ok (.storeu vs1 addr, rest) →
      (2 ^ 64 - 64 < addr.toNat → SameMem s (s.resetDuringStore k)) ∧
      (WindowValid s addr.toNat → Stored s (s.resetDuringStore k) (s.readV vs1) addr.toNat (16 * min k 4)) ∧
      ∀ j : Fin 4, addr.toNat ≤ 2 ^ 64 - 64 → FirstError s addr.toNat j →
        Stored s (s.resetDuringStore k) (s.readV vs1) addr.toNat (16 * min k j.val)

/-- A term `SETR` without sixteen elements is no command: the model refuses it by name (log entry 15). -/
def Obligations.IllFormedSetrRefused : Prop :=
  ∀ (vd : VReg) (e : List Word) (s : State), e.length ≠ 16 → exec (.setr vd e) s = .refused .illFormedSetr
end

