-- ==== Sys2Proof/Laws/Decode.lean ====
section
/-! SUPPORT. The fields of an assembled command word, and one inversion lemma for the decoder. -/

namespace Sys2Proof

theorem Instr.wellFormed_setr (vd : VReg) (e : List Word) : (Instr.setr vd e).WellFormed ↔ e.length = 16 :=
  beq_iff_eq

/-! ### The fields of `commandWord` (R81) -/

theorem opField_toNat (w : Word) : (opField w).toNat = w.toNat % 16 := by
  simp [opField, BitVec.extractLsb'_toNat]

theorem rdField_toNat (w : Word) : (rdField w).toNat = w.toNat / 16 % 16 := by
  simp [rdField, BitVec.extractLsb'_toNat, Nat.shiftRight_eq_div_pow]

theorem rs1Field_toNat (w : Word) : (rs1Field w).toNat = w.toNat / 256 % 16 := by
  simp [rs1Field, BitVec.extractLsb'_toNat, Nat.shiftRight_eq_div_pow]

theorem rs2Field_toNat (w : Word) : (rs2Field w).toNat = w.toNat / 4096 % 16 := by
  simp [rs2Field, BitVec.extractLsb'_toNat, Nat.shiftRight_eq_div_pow]

theorem immField_toNat (w : Word) : (immField w).toNat = w.toNat / 65536 % 65536 := by
  simp [immField, BitVec.extractLsb'_toNat, Nat.shiftRight_eq_div_pow]

section
variable {op rd rs1 rs2 imm : Nat} (hop : op < 16) (hrd : rd < 16) (h1 : rs1 < 16) (h2 : rs2 < 16) (hi : imm < 65536)
include hop hrd h1 h2 hi

theorem commandWord_toNat :
    (commandWord op rd rs1 rs2 imm).toNat = op + rd * 16 + rs1 * 256 + rs2 * 4096 + imm * 65536 := by
  rw [commandWord, BitVec.toNat_ofNat, Nat.mod_eq_of_lt] <;> omega

theorem opField_commandWord : (opField (commandWord op rd rs1 rs2 imm)).toNat = op := by
  rw [opField_toNat, commandWord_toNat hop hrd h1 h2 hi]; omega

theorem rdField_commandWord : (rdField (commandWord op rd rs1 rs2 imm)).toNat = rd := by
  rw [rdField_toNat, commandWord_toNat hop hrd h1 h2 hi]; omega

theorem rs1Field_commandWord : (rs1Field (commandWord op rd rs1 rs2 imm)).toNat = rs1 := by
  rw [rs1Field_toNat, commandWord_toNat hop hrd h1 h2 hi]; omega

theorem rs2Field_commandWord : (rs2Field (commandWord op rd rs1 rs2 imm)).toNat = rs2 := by
  rw [rs2Field_toNat, commandWord_toNat hop hrd h1 h2 hi]; omega

theorem immField_commandWord : (immField (commandWord op rd rs1 rs2 imm)).toNat = imm := by
  rw [immField_toNat, commandWord_toNat hop hrd h1 h2 hi]; omega

end

/-- A word is its five fields (R81). -/
theorem commandWord_fields (w : Word) :
    commandWord (opField w).toNat (rdField w).toNat (rs1Field w).toNat (rs2Field w).toNat (immField w).toNat = w := by
  apply BitVec.eq_of_toNat_eq
  have hw := w.isLt
  rw [commandWord_toNat (opField w).isLt (rdField w).isLt (rs1Field w).isLt (rs2Field w).isLt (immField w).isLt,
    opField_toNat, rdField_toNat, rs1Field_toNat, rs2Field_toNat, immField_toNat]
  omega

theorem regOf_val (f : BitVec 4) : (regOf f).val = f.toNat := rfl

/-! ### The address payload (R85) -/

theorem addrOfWords_wordsOfAddr (addr : Addr) :
    addrOfWords (addr.extractLsb' 0 32) (addr.extractLsb' 32 32) = addr := by
  apply BitVec.eq_of_toNat_eq
  have := addr.isLt
  rw [addrOfWords, BitVec.toNat_ofNat, BitVec.extractLsb'_toNat, BitVec.extractLsb'_toNat]
  simp only [Nat.shiftRight_eq_div_pow]
  omega

theorem addrOfWords_toNat (lo hi : Word) : (addrOfWords lo hi).toNat = lo.toNat + hi.toNat * 2 ^ 32 := by
  have h1 := lo.isLt
  have h2 := hi.isLt
  rw [addrOfWords, BitVec.toNat_ofNat, Nat.mod_eq_of_lt]
  omega

theorem wordsOfAddr_addrOfWords (lo hi : Word) : wordsOfAddr (addrOfWords lo hi) = [lo, hi] := by
  have h1 := lo.isLt
  have h2 := hi.isLt
  have hlo : (addrOfWords lo hi).extractLsb' 0 32 = lo := by
    apply BitVec.eq_of_toNat_eq
    rw [BitVec.extractLsb'_toNat, addrOfWords_toNat, Nat.shiftRight_eq_div_pow]
    omega
  have hhi : (addrOfWords lo hi).extractLsb' 32 32 = hi := by
    apply BitVec.eq_of_toNat_eq
    rw [BitVec.extractLsb'_toNat, addrOfWords_toNat, Nat.shiftRight_eq_div_pow]
    omega
  rw [wordsOfAddr, hlo, hhi]

/-! ### The decoder -/

theorem takeAddr_ok {ws : List Word} {k : Addr → Instr} {i : Instr} {rest : List Word}
    (h : takeAddr ws k = .ok (i, rest)) : ∃ lo hi, ws = lo :: hi :: rest ∧ i = k (addrOfWords lo hi) := by
  match ws, h with
  | lo :: hi :: t, h =>
    simp only [takeAddr, Except.ok.injEq, Prod.mk.injEq] at h
    exact ⟨lo, hi, by rw [h.2], h.1.symm⟩

theorem takeElems_ok {ws : List Word} {k : List Word → Instr} {i : Instr} {rest : List Word}
    (h : takeElems ws k = .ok (i, rest)) : ∃ e, e.length = 16 ∧ ws = e ++ rest ∧ i = k e := by
  unfold takeElems at h
  split at h
  · simp only [Except.ok.injEq, Prod.mk.injEq] at h
    refine ⟨ws.take 16, by simp; omega, ?_, h.1.symm⟩
    rw [← h.2, List.take_append_drop]
  · cases h

theorem takeElems_append {e rest : List Word} (he : e.length = 16) (k : List Word → Instr) :
    takeElems (e ++ rest) k = .ok (k e, rest) := by
  rw [takeElems, if_pos (by simp [he]), List.take_left' he, List.drop_left' he]

/-- A word with a legal opcode and its reserved fields zero decodes by its opcode (R86, R88, R90). -/
theorem decode_cons {w : Word} {ws : List Word} (h1 : opReserved w = false) (h2 : reservedFieldsZero w = true) :
    decode (w :: ws) = decodeLegal w ws := by
  simp [decode, h1, h2]

/-- A list decodes only if its command word is legal. -/
theorem decode_ok {ws rest : List Word} {i : Instr} (h : decode ws = .ok (i, rest)) :
    ∃ w t, ws = w :: t ∧ opReserved w = false ∧ reservedFieldsZero w = true ∧ decodeLegal w t = .ok (i, rest) := by
  match ws, h with
  | w :: t, h =>
    refine ⟨w, t, rfl, ?_⟩
    rw [decode] at h
    by_cases h1 : opReserved w = true
    · rw [if_pos h1] at h
      cases h
    · rw [if_neg h1] at h
      by_cases h2 : reservedFieldsZero w = true
      · rw [if_pos h2] at h
        exact ⟨by simpa using h1, h2, h⟩
      · rw [if_neg h2] at h
        cases h

end Sys2Proof
end

