-- ==== Sys2Proof/Laws/Memory.lean ====
section
/-! SUPPORT. The data memory: a byte read after a write, and every memory operation keeps the canonical form. -/

namespace Sys2Proof.Machine

/-- The key of the first cell lies above `lo`. -/
abbrev Memory.above (lo : Option Nat) (a : Nat) : Prop := ∀ l, lo = some l → l < a

theorem Memory.wfAbove_nil (lo : Option Nat) : Memory.wfAbove lo [] = true := rfl

theorem Memory.wfAbove_cons {lo : Option Nat} {k : Nat} {v : Byte} {m : Memory} :
    Memory.wfAbove lo ((k, v) :: m) = true ↔
      Memory.above lo k ∧ k < 2 ^ 64 ∧ v ≠ Memory.unlisted ∧ Memory.wfAbove (some k) m = true := by
  cases lo with
  | none => simp [Memory.wfAbove, Memory.above, and_assoc]
  | some l => simp [Memory.wfAbove, Memory.above, and_assoc]

theorem Memory.wf_nil : Memory.wf [] = true := rfl

/-- Nothing at or below the bound is listed. -/
theorem Memory.read_below {l : Nat} {m : Memory} (h : Memory.wfAbove (some l) m = true) {a : Nat} (ha : a ≤ l) :
    m.read a = Memory.unlisted := by
  induction m generalizing l with
  | nil => rfl
  | cons c m ih =>
    obtain ⟨k, v⟩ := c
    obtain ⟨hk, -, -, hm⟩ := Memory.wfAbove_cons.1 h
    have hlk : l < k := hk l rfl
    rw [Memory.read, if_neg (by omega)]
    exact ih hm (by omega)

theorem Memory.wfAbove_weaken {lo : Option Nat} {l : Nat} {m : Memory} (hl : Memory.above lo l)
    (h : Memory.wfAbove (some l) m = true) : Memory.wfAbove lo m = true := by
  cases m with
  | nil => rfl
  | cons c m =>
    obtain ⟨k, v⟩ := c
    obtain ⟨hk, h1, h2, h3⟩ := Memory.wfAbove_cons.1 h
    exact Memory.wfAbove_cons.2 ⟨fun x hx => Nat.lt_trans (hl x hx) (hk l rfl), h1, h2, h3⟩

theorem Memory.read_cons {l : Nat} {m : Memory} (h : Memory.wfAbove (some l) m = true) (b : Byte) (x : Nat) :
    (Memory.cons l b m).read x = if x = l then b else m.read x := by
  unfold Memory.cons
  by_cases hb : b = Memory.unlisted
  · rw [if_pos hb]
    by_cases hx : x = l
    · rw [if_pos hx, Memory.read_below h (by omega), hb]
    · rw [if_neg hx]
  · rw [if_neg hb, Memory.read]
    by_cases hx : x = l
    · rw [if_pos hx.symm, if_pos hx]
    · rw [if_neg (Ne.symm hx), if_neg hx]

theorem Memory.wfAbove_consOp {lo : Option Nat} {l : Nat} {m : Memory} (hl : Memory.above lo l) (ha : l < 2 ^ 64)
    (h : Memory.wfAbove (some l) m = true) (b : Byte) : Memory.wfAbove lo (Memory.cons l b m) = true := by
  unfold Memory.cons
  by_cases hb : b = Memory.unlisted
  · rw [if_pos hb]
    exact Memory.wfAbove_weaken hl h
  · rw [if_neg hb]
    exact Memory.wfAbove_cons.2 ⟨hl, ha, hb, h⟩

theorem Memory.write_spec {lo : Option Nat} {m : Memory} (h : Memory.wfAbove lo m = true) {a : Nat}
    (hlo : Memory.above lo a) (ha : a < 2 ^ 64) (b : Byte) :
    Memory.wfAbove lo (m.write a b) = true ∧
      ∀ x, (m.write a b).read x = if x = a then b else m.read x := by
  induction m generalizing lo with
  | nil => exact ⟨Memory.wfAbove_consOp hlo ha rfl b, Memory.read_cons rfl b⟩
  | cons c m ih =>
    obtain ⟨k, v⟩ := c
    obtain ⟨hk, hk64, hv, hm⟩ := Memory.wfAbove_cons.1 h
    rw [Memory.write]
    by_cases hak : a < k
    · rw [if_pos hak]
      have hwf : Memory.wfAbove (some a) ((k, v) :: m) = true :=
        Memory.wfAbove_cons.2 ⟨fun l hl => by injection hl; omega, hk64, hv, hm⟩
      exact ⟨Memory.wfAbove_consOp hlo ha hwf b, Memory.read_cons hwf b⟩
    · rw [if_neg hak]
      by_cases hek : a = k
      · subst hek
        rw [if_pos rfl]
        refine ⟨Memory.wfAbove_consOp hlo ha hm b, fun x => ?_⟩
        rw [Memory.read_cons hm, Memory.read]
        by_cases hx : x = a
        · simp [hx]
        · simp [hx, Ne.symm hx]
      · rw [if_neg hek]
        obtain ⟨h1, h2⟩ := ih hm (fun l hl => by injection hl; omega)
        refine ⟨Memory.wfAbove_cons.2 ⟨hk, hk64, hv, h1⟩, fun x => ?_⟩
        rw [Memory.read, Memory.read, h2]
        by_cases hx : k = x
        · subst hx
          rw [if_pos rfl, if_pos rfl, if_neg (Ne.symm hek)]
        · rw [if_neg hx, if_neg hx]

/-- A write keeps the canonical form. -/
theorem Memory.wf_write {m : Memory} (h : m.wf = true) {a : Nat} (ha : a < 2 ^ 64) (b : Byte) :
    (m.write a b).wf = true :=
  (Memory.write_spec h (fun _ hl => by cases hl) ha b).1

/-- A byte read after a write. -/
theorem Memory.read_write {m : Memory} (h : m.wf = true) {a : Nat} (ha : a < 2 ^ 64) (b : Byte) (x : Nat) :
    (m.write a b).read x = if x = a then b else m.read x :=
  (Memory.write_spec h (fun _ hl => by cases hl) ha b).2 x

/-- Writing a range keeps the canonical form and changes exactly the range. -/
theorem Memory.writeBytes_spec {m : Memory} (h : m.wf = true) {a : Nat} (f : Nat → Byte) {n : Nat}
    (hn : a + n ≤ 2 ^ 64) :
    (m.writeBytes a f n).wf = true ∧
      ∀ x, (m.writeBytes a f n).read x = if a ≤ x ∧ x < a + n then f (x - a) else m.read x := by
  induction n with
  | zero =>
    refine ⟨h, fun x => ?_⟩
    rw [if_neg (by omega)]
    rfl
  | succ n ih =>
    obtain ⟨h1, h2⟩ := ih (by omega)
    refine ⟨Memory.wf_write h1 (by omega) _, fun x => ?_⟩
    rw [Memory.writeBytes, Memory.read_write h1 (by omega), h2]
    by_cases hx : x = a + n
    · rw [if_pos hx, if_pos (by omega), hx, Nat.add_sub_cancel_left]
    · rw [if_neg hx]
      by_cases hr : a ≤ x ∧ x < a + n
      · rw [if_pos hr, if_pos (by omega)]
      · rw [if_neg hr, if_neg (by omega)]

/-- Equal bytes everywhere make equal memories: the form is canonical. -/
theorem Memory.wfAbove_ext {lo lo' : Option Nat} {m n : Memory} (hm : Memory.wfAbove lo m = true)
    (hn : Memory.wfAbove lo' n = true) (h : ∀ x, m.read x = n.read x) : m = n := by
  induction m generalizing lo lo' n with
  | nil =>
    cases n with
    | nil => rfl
    | cons c n =>
      obtain ⟨k, v⟩ := c
      have hv := (Memory.wfAbove_cons.1 hn).2.2.1
      have := h k
      simp only [Memory.read, if_true] at this
      exact absurd this.symm hv
  | cons c m ih =>
    obtain ⟨k, v⟩ := c
    obtain ⟨-, -, hv, hm'⟩ := Memory.wfAbove_cons.1 hm
    cases n with
    | nil =>
      have := h k
      simp only [Memory.read, if_true] at this
      exact absurd this hv
    | cons d n =>
      obtain ⟨k', v'⟩ := d
      obtain ⟨-, -, hv', hn'⟩ := Memory.wfAbove_cons.1 hn
      have hk : k = k' := by
        rcases Nat.lt_trichotomy k k' with hlt | heq | hgt
        · have := h k
          simp only [Memory.read, if_true, if_neg (show k' ≠ k by omega), Memory.read_below hn' (Nat.le_of_lt hlt)] at this
          exact absurd this hv
        · exact heq
        · have := h k'
          simp only [Memory.read, if_true, if_neg (show k ≠ k' by omega), Memory.read_below hm' (Nat.le_of_lt hgt)] at this
          exact absurd this.symm hv'
      subst hk
      have hvv : v = v' := by
        have := h k
        simpa only [Memory.read, if_true] using this
      subst hvv
      have : m = n := ih hm' hn' fun x => by
        by_cases hx : k = x
        · rw [Memory.read_below hm' (by omega), Memory.read_below hn' (by omega)]
        · have := h x
          simpa only [Memory.read, if_neg hx] using this
      rw [this]

/-- Two memories in canonical form with the same bytes are the same memory. -/
theorem Memory.wf_ext {m n : Memory} (hm : m.wf = true) (hn : n.wf = true) (h : ∀ x, m.read x = n.read x) : m = n :=
  Memory.wfAbove_ext hm hn h

end Sys2Proof.Machine
end

