-- ==== Sys2Proof/Laws/State.lean ====
section
/-! SUPPORT. The fields of State after each update, and registers read after each update. -/

namespace Sys2Proof.Machine

/-! ### `writeV` -/

@[simp] theorem State.writeV_v (s : State) (r : VReg) (w : WideVector) : (s.writeV r w).v = s.v.set r.val w := rfl
@[simp] theorem State.writeV_x (s : State) (r : VReg) (w : WideVector) : (s.writeV r w).x = s.x := rfl
@[simp] theorem State.writeV_pc (s : State) (r : VReg) (w : WideVector) : (s.writeV r w).pc = s.pc := rfl
@[simp] theorem State.writeV_fstat (s : State) (r : VReg) (w : WideVector) : (s.writeV r w).fstat = s.fstat := rfl
@[simp] theorem State.writeV_fpc (s : State) (r : VReg) (w : WideVector) : (s.writeV r w).fpc = s.fpc := rfl
@[simp] theorem State.writeV_faddr (s : State) (r : VReg) (w : WideVector) : (s.writeV r w).faddr = s.faddr := rfl
@[simp] theorem State.writeV_mem (s : State) (r : VReg) (w : WideVector) : (s.writeV r w).mem = s.mem := rfl
@[simp] theorem State.writeV_holes (s : State) (r : VReg) (w : WideVector) : (s.writeV r w).holes = s.holes := rfl
@[simp] theorem State.writeV_cmd (s : State) (r : VReg) (w : WideVector) : (s.writeV r w).cmd = s.cmd := rfl
@[simp] theorem State.writeV_resets (s : State) (r : VReg) (w : WideVector) : (s.writeV r w).resets = s.resets := rfl

/-! ### `writeX` -/

@[simp] theorem State.writeX_v (s : State) (r : XReg) (l : Lane) : (s.writeX r l).v = s.v := rfl
@[simp] theorem State.writeX_x (s : State) (r : XReg) (l : Lane) : (s.writeX r l).x = s.x.set r.val l := rfl
@[simp] theorem State.writeX_pc (s : State) (r : XReg) (l : Lane) : (s.writeX r l).pc = s.pc := rfl
@[simp] theorem State.writeX_fstat (s : State) (r : XReg) (l : Lane) : (s.writeX r l).fstat = s.fstat := rfl
@[simp] theorem State.writeX_fpc (s : State) (r : XReg) (l : Lane) : (s.writeX r l).fpc = s.fpc := rfl
@[simp] theorem State.writeX_faddr (s : State) (r : XReg) (l : Lane) : (s.writeX r l).faddr = s.faddr := rfl
@[simp] theorem State.writeX_mem (s : State) (r : XReg) (l : Lane) : (s.writeX r l).mem = s.mem := rfl
@[simp] theorem State.writeX_holes (s : State) (r : XReg) (l : Lane) : (s.writeX r l).holes = s.holes := rfl
@[simp] theorem State.writeX_cmd (s : State) (r : XReg) (l : Lane) : (s.writeX r l).cmd = s.cmd := rfl
@[simp] theorem State.writeX_resets (s : State) (r : XReg) (l : Lane) : (s.writeX r l).resets = s.resets := rfl

/-! ### `advance` -/

@[simp] theorem State.advance_v (s : State) (n : Nat) : (s.advance n).v = s.v := rfl
@[simp] theorem State.advance_x (s : State) (n : Nat) : (s.advance n).x = s.x := rfl
@[simp] theorem State.advance_pc (s : State) (n : Nat) : (s.advance n).pc = s.pc + BitVec.ofNat 32 n := rfl
@[simp] theorem State.advance_fstat (s : State) (n : Nat) : (s.advance n).fstat = s.fstat := rfl
@[simp] theorem State.advance_fpc (s : State) (n : Nat) : (s.advance n).fpc = s.fpc := rfl
@[simp] theorem State.advance_faddr (s : State) (n : Nat) : (s.advance n).faddr = s.faddr := rfl
@[simp] theorem State.advance_mem (s : State) (n : Nat) : (s.advance n).mem = s.mem := rfl
@[simp] theorem State.advance_holes (s : State) (n : Nat) : (s.advance n).holes = s.holes := rfl
@[simp] theorem State.advance_cmd (s : State) (n : Nat) : (s.advance n).cmd = s.cmd := rfl
@[simp] theorem State.advance_resets (s : State) (n : Nat) : (s.advance n).resets = s.resets := rfl

/-! ### `setMem` -/

@[simp] theorem State.setMem_v (s : State) (m : Memory) : (s.setMem m).v = s.v := rfl
@[simp] theorem State.setMem_x (s : State) (m : Memory) : (s.setMem m).x = s.x := rfl
@[simp] theorem State.setMem_pc (s : State) (m : Memory) : (s.setMem m).pc = s.pc := rfl
@[simp] theorem State.setMem_fstat (s : State) (m : Memory) : (s.setMem m).fstat = s.fstat := rfl
@[simp] theorem State.setMem_fpc (s : State) (m : Memory) : (s.setMem m).fpc = s.fpc := rfl
@[simp] theorem State.setMem_faddr (s : State) (m : Memory) : (s.setMem m).faddr = s.faddr := rfl
@[simp] theorem State.setMem_mem (s : State) (m : Memory) : (s.setMem m).mem = m := rfl
@[simp] theorem State.setMem_holes (s : State) (m : Memory) : (s.setMem m).holes = s.holes := rfl
@[simp] theorem State.setMem_cmd (s : State) (m : Memory) : (s.setMem m).cmd = s.cmd := rfl
@[simp] theorem State.setMem_resets (s : State) (m : Memory) : (s.setMem m).resets = s.resets := rfl

/-! ### `raiseFault` -/

@[simp] theorem State.raiseFault_v (s : State) (c : Cause) (a : Addr) : (s.raiseFault c a).v = s.v := rfl
@[simp] theorem State.raiseFault_x (s : State) (c : Cause) (a : Addr) : (s.raiseFault c a).x = s.x := rfl
@[simp] theorem State.raiseFault_pc (s : State) (c : Cause) (a : Addr) : (s.raiseFault c a).pc = s.pc := rfl
@[simp] theorem State.raiseFault_fstat (s : State) (c : Cause) (a : Addr) : (s.raiseFault c a).fstat = fstatOf c := rfl
@[simp] theorem State.raiseFault_fpc (s : State) (c : Cause) (a : Addr) : (s.raiseFault c a).fpc = s.pc := rfl
@[simp] theorem State.raiseFault_faddr (s : State) (c : Cause) (a : Addr) : (s.raiseFault c a).faddr = a := rfl
@[simp] theorem State.raiseFault_mem (s : State) (c : Cause) (a : Addr) : (s.raiseFault c a).mem = s.mem := rfl
@[simp] theorem State.raiseFault_holes (s : State) (c : Cause) (a : Addr) : (s.raiseFault c a).holes = s.holes := rfl
@[simp] theorem State.raiseFault_cmd (s : State) (c : Cause) (a : Addr) : (s.raiseFault c a).cmd = s.cmd := rfl
@[simp] theorem State.raiseFault_resets (s : State) (c : Cause) (a : Addr) : (s.raiseFault c a).resets = s.resets := rfl

/-! ### `resetEvent` -/

@[simp] theorem State.resetEvent_v (s : State) : s.resetEvent.v = vFile (s.resets + 1) := rfl
@[simp] theorem State.resetEvent_x (s : State) : s.resetEvent.x = xFile (s.resets + 1) := rfl
@[simp] theorem State.resetEvent_pc (s : State) : s.resetEvent.pc = 0 := rfl
@[simp] theorem State.resetEvent_fstat (s : State) : s.resetEvent.fstat = 0 := rfl
@[simp] theorem State.resetEvent_fpc (s : State) : s.resetEvent.fpc = 0 := rfl
@[simp] theorem State.resetEvent_faddr (s : State) : s.resetEvent.faddr = 0 := rfl
@[simp] theorem State.resetEvent_mem (s : State) : s.resetEvent.mem = s.mem := rfl
@[simp] theorem State.resetEvent_holes (s : State) : s.resetEvent.holes = s.holes := rfl
@[simp] theorem State.resetEvent_cmd (s : State) : s.resetEvent.cmd = [] := rfl
@[simp] theorem State.resetEvent_resets (s : State) : s.resetEvent.resets = s.resets + 1 := rfl

/-! ### Registers and bytes read after an update -/

theorem State.readV_writeV (s : State) (r q : VReg) (w : WideVector) :
    (s.writeV r w).readV q = if q = r then w else s.readV q := by
  simp only [State.readV, State.writeV_v, Vector.getElem_set, Fin.ext_iff, eq_comm]

theorem State.readX_writeX (s : State) (r q : XReg) (l : Lane) :
    (s.writeX r l).readX q = if q = r then l else s.readX q := by
  simp only [State.readX, State.writeX_x, Vector.getElem_set, Fin.ext_iff, eq_comm]

@[simp] theorem State.readV_writeV_same (s : State) (r : VReg) (w : WideVector) :
    (s.writeV r w).readV r = w := by simp [State.readV_writeV]

theorem State.readV_writeV_other (s : State) {r q : VReg} (w : WideVector) (h : q ≠ r) :
    (s.writeV r w).readV q = s.readV q := by simp [State.readV_writeV, h]

@[simp] theorem State.readX_writeX_same (s : State) (r : XReg) (l : Lane) :
    (s.writeX r l).readX r = l := by simp [State.readX_writeX]

theorem State.readX_writeX_other (s : State) {r q : XReg} (l : Lane) (h : q ≠ r) :
    (s.writeX r l).readX q = s.readX q := by simp [State.readX_writeX, h]

@[simp] theorem State.readX_writeV (s : State) (r : VReg) (w : WideVector) (q : XReg) : (s.writeV r w).readX q = s.readX q := rfl
@[simp] theorem State.readByte_writeV (s : State) (r : VReg) (w : WideVector) (q : Nat) : (s.writeV r w).readByte q = s.readByte q := rfl
@[simp] theorem State.memValid_writeV (s : State) (r : VReg) (w : WideVector) (q : Nat) : (s.writeV r w).memValid q = s.memValid q := rfl
@[simp] theorem State.portDone_writeV (s : State) (r : VReg) (w : WideVector) (q : Nat) : (s.writeV r w).portDone q = s.portDone q := rfl
@[simp] theorem State.readV_writeX (s : State) (r : XReg) (l : Lane) (q : VReg) : (s.writeX r l).readV q = s.readV q := rfl
@[simp] theorem State.readByte_writeX (s : State) (r : XReg) (l : Lane) (q : Nat) : (s.writeX r l).readByte q = s.readByte q := rfl
@[simp] theorem State.memValid_writeX (s : State) (r : XReg) (l : Lane) (q : Nat) : (s.writeX r l).memValid q = s.memValid q := rfl
@[simp] theorem State.portDone_writeX (s : State) (r : XReg) (l : Lane) (q : Nat) : (s.writeX r l).portDone q = s.portDone q := rfl
@[simp] theorem State.readV_advance (s : State) (n : Nat) (q : VReg) : (s.advance n).readV q = s.readV q := rfl
@[simp] theorem State.readX_advance (s : State) (n : Nat) (q : XReg) : (s.advance n).readX q = s.readX q := rfl
@[simp] theorem State.readByte_advance (s : State) (n : Nat) (q : Nat) : (s.advance n).readByte q = s.readByte q := rfl
@[simp] theorem State.memValid_advance (s : State) (n : Nat) (q : Nat) : (s.advance n).memValid q = s.memValid q := rfl
@[simp] theorem State.portDone_advance (s : State) (n : Nat) (q : Nat) : (s.advance n).portDone q = s.portDone q := rfl
@[simp] theorem State.readV_setMem (s : State) (m : Memory) (q : VReg) : (s.setMem m).readV q = s.readV q := rfl
@[simp] theorem State.readX_setMem (s : State) (m : Memory) (q : XReg) : (s.setMem m).readX q = s.readX q := rfl
@[simp] theorem State.memValid_setMem (s : State) (m : Memory) (q : Nat) : (s.setMem m).memValid q = s.memValid q := rfl
@[simp] theorem State.portDone_setMem (s : State) (m : Memory) (q : Nat) : (s.setMem m).portDone q = s.portDone q := rfl
@[simp] theorem State.readV_raiseFault (s : State) (c : Cause) (a : Addr) (q : VReg) : (s.raiseFault c a).readV q = s.readV q := rfl
@[simp] theorem State.readX_raiseFault (s : State) (c : Cause) (a : Addr) (q : XReg) : (s.raiseFault c a).readX q = s.readX q := rfl
@[simp] theorem State.readByte_raiseFault (s : State) (c : Cause) (a : Addr) (q : Nat) : (s.raiseFault c a).readByte q = s.readByte q := rfl
@[simp] theorem State.memValid_raiseFault (s : State) (c : Cause) (a : Addr) (q : Nat) : (s.raiseFault c a).memValid q = s.memValid q := rfl
@[simp] theorem State.portDone_raiseFault (s : State) (c : Cause) (a : Addr) (q : Nat) : (s.raiseFault c a).portDone q = s.portDone q := rfl

@[simp] theorem State.readByte_setMem (s : State) (m : Memory) (a : Nat) :
    (s.setMem m).readByte a = m.read a := rfl

end Sys2Proof.Machine
end

