-- ==== Sys2Proof/Laws/Views.lean ====
section
/-! SUPPORT. The lane and vector views: what the constructors put in, the accessors read back, and a value is determined by
its bytes or its elements (00_scope.md R11, R12). -/

namespace Sys2Proof.Machine

/-! ### Packed chunks -/

theorem packChunks_lt (w : Nat) (f : Nat → Nat) (n : Nat) (hf : ∀ i, i < n → f i < 2 ^ w) :
    packChunks w f n < 2 ^ (w * n) := by
  induction n with
  | zero => simp [packChunks]
  | succ n ih =>
    have h1 := ih fun i hi => hf i (by omega)
    have h2 : f n * 2 ^ (w * n) ≤ (2 ^ w - 1) * 2 ^ (w * n) :=
      Nat.mul_le_mul_right _ (by have := hf n (by omega); omega)
    have h3 : (2 ^ w - 1) * 2 ^ (w * n) + 2 ^ (w * n) = 2 ^ (w * (n + 1)) := by
      have : 0 < 2 ^ w := Nat.two_pow_pos w
      rw [Nat.mul_succ, Nat.pow_add, ← Nat.succ_mul, Nat.succ_eq_add_one,
        Nat.sub_add_cancel this, Nat.mul_comm]
    simp only [packChunks]
    omega

theorem packChunks_chunk (w : Nat) (f : Nat → Nat) (n : Nat) (hf : ∀ i, i < n → f i < 2 ^ w)
    {k : Nat} (hk : k < n) : packChunks w f n / 2 ^ (w * k) % 2 ^ w = f k := by
  induction n with
  | zero => omega
  | succ n ih =>
    have hlt := packChunks_lt w f n fun i hi => hf i (by omega)
    simp only [packChunks]
    by_cases hkn : k = n
    · subst hkn
      rw [Nat.add_mul_div_right _ _ (Nat.two_pow_pos _), Nat.div_eq_of_lt hlt, Nat.zero_add,
        Nat.mod_eq_of_lt (hf k (by omega))]
    · have hsplit : w * n = w * k + (w + w * (n - k - 1)) := by
        have : n = k + (1 + (n - k - 1)) := by omega
        conv_lhs => rw [this, Nat.mul_add, Nat.mul_add, Nat.mul_one]
      have hpow : f n * 2 ^ (w * n) = 2 ^ w * (f n * 2 ^ (w * (n - k - 1))) * 2 ^ (w * k) := by
        rw [hsplit, Nat.pow_add, Nat.pow_add]; ring
      rw [hpow, Nat.add_mul_div_right _ _ (Nat.two_pow_pos _), Nat.add_mul_mod_self_left]
      exact ih (fun i hi => hf i (by omega)) (by omega)

/-! ### Lanes -/

theorem laneByte_toNat (l : Lane) (i : Nat) : (laneByte l i).toNat = l.toNat / 2 ^ (8 * i) % 2 ^ 8 := by
  simp [laneByte, BitVec.extractLsb'_toNat, Nat.shiftRight_eq_div_pow]

theorem laneElem_toNat (l : Lane) (p : Nat) : (laneElem l p).toNat = l.toNat / 2 ^ (32 * p) % 2 ^ 32 := by
  simp [laneElem, BitVec.extractLsb'_toNat, Nat.shiftRight_eq_div_pow]

theorem laneByte_laneOfBytes (f : Nat → Byte) {i : Nat} (hi : i < 16) : laneByte (laneOfBytes f) i = f i := by
  apply BitVec.eq_of_toNat_eq
  have hf : ∀ j, j < 16 → (f j).toNat < 2 ^ 8 := fun j _ => (f j).isLt
  have hlt := packChunks_lt 8 (fun j => (f j).toNat) 16 hf
  rw [laneByte_toNat, laneOfBytes, BitVec.toNat_ofNat, Nat.mod_eq_of_lt hlt]
  exact packChunks_chunk 8 (fun j => (f j).toNat) 16 hf hi

theorem laneElem_laneOfElems (f : Nat → Word) {p : Nat} (hp : p < 4) : laneElem (laneOfElems f) p = f p := by
  apply BitVec.eq_of_toNat_eq
  have hf : ∀ j, j < 4 → (f j).toNat < 2 ^ 32 := fun j _ => (f j).isLt
  have hlt := packChunks_lt 32 (fun j => (f j).toNat) 4 hf
  rw [laneElem_toNat, laneOfElems, BitVec.toNat_ofNat, Nat.mod_eq_of_lt hlt]
  exact packChunks_chunk 32 (fun j => (f j).toNat) 4 hf hp

theorem getLsbD_laneByte (l : Lane) (i j : Nat) :
    (laneByte l i).getLsbD j = (decide (j < 8) && l.getLsbD (8 * i + j)) := by
  simp [laneByte, BitVec.getLsbD_extractLsb']

theorem getLsbD_laneElem (l : Lane) (p j : Nat) :
    (laneElem l p).getLsbD j = (decide (j < 32) && l.getLsbD (32 * p + j)) := by
  simp [laneElem, BitVec.getLsbD_extractLsb']

/-- A lane is its sixteen bytes. -/
theorem lane_ext_bytes {l m : Lane} (h : ∀ i, i < 16 → laneByte l i = laneByte m i) : l = m := by
  apply BitVec.eq_of_getLsbD_eq
  intro j hj
  have hb := congrArg (fun b => b.getLsbD (j % 8)) (h (j / 8) (by omega))
  simp only [getLsbD_laneByte] at hb
  have hlt : j % 8 < 8 := Nat.mod_lt _ (by omega)
  rw [show 8 * (j / 8) + j % 8 = j by omega] at hb
  simpa [hlt] using hb

/-- A lane is its four elements. -/
theorem lane_ext_elems {l m : Lane} (h : ∀ p, p < 4 → laneElem l p = laneElem m p) : l = m := by
  apply BitVec.eq_of_getLsbD_eq
  intro j hj
  have hb := congrArg (fun b => b.getLsbD (j % 32)) (h (j / 32) (by omega))
  simp only [getLsbD_laneElem] at hb
  have hlt : j % 32 < 32 := Nat.mod_lt _ (by omega)
  rw [show 32 * (j / 32) + j % 32 = j by omega] at hb
  simpa [hlt] using hb

/-- Byte `i` of a lane is byte `i mod 4`, counted from the least significant, of element `i div 4` (R11, R52). -/
theorem laneByte_eq_elem (l : Lane) (i : Nat) :
    laneByte l i = (laneElem l (i / 4)).extractLsb' (8 * (i % 4)) 8 := by
  apply BitVec.eq_of_getLsbD_eq
  intro j hj
  rw [getLsbD_laneByte, BitVec.getLsbD_extractLsb', getLsbD_laneElem,
    show 32 * (i / 4) + (8 * (i % 4) + j) = 8 * i + j by omega]
  have : 8 * (i % 4) + j < 32 := by omega
  simp [hj, this]

theorem laneByte_xor (l m : Lane) (i : Nat) : laneByte (l ^^^ m) i = laneByte l i ^^^ laneByte m i := by
  apply BitVec.eq_of_getLsbD_eq
  intro j hj
  simp only [BitVec.getLsbD_xor, getLsbD_laneByte, hj, decide_true, Bool.true_and]

theorem laneByte_or (l m : Lane) (i : Nat) : laneByte (l ||| m) i = laneByte l i ||| laneByte m i := by
  apply BitVec.eq_of_getLsbD_eq
  intro j hj
  simp only [BitVec.getLsbD_or, getLsbD_laneByte, hj, decide_true, Bool.true_and]

theorem laneByte_and (l m : Lane) (i : Nat) : laneByte (l &&& m) i = laneByte l i &&& laneByte m i := by
  apply BitVec.eq_of_getLsbD_eq
  intro j hj
  simp only [BitVec.getLsbD_and, getLsbD_laneByte, hj, decide_true, Bool.true_and]

/-! ### Vectors -/

theorem vecLane_vecOfLanes (f : Fin 4 → Lane) (k : Fin 4) : vecLane (vecOfLanes f) k = f k := by
  match k with
  | 0 => rfl
  | 1 => rfl
  | 2 => rfl
  | 3 => rfl

theorem vecOfLanes_vecLane (w : WideVector) : vecOfLanes (vecLane w) = w := rfl

/-- A vector is its four lanes. -/
theorem vec_ext_lanes {u w : WideVector} (h : ∀ k, vecLane u k = vecLane w k) : u = w :=
  WideVector.ext (h 0) (h 1) (h 2) (h 3)

theorem fin4_ofNat_val {n : Nat} (h : n < 4) : (Fin.ofNat 4 n).val = n := Nat.mod_eq_of_lt h

theorem vecByte_lane (w : WideVector) (k : Fin 4) {j : Nat} (hj : j < 16) :
    vecByte w (16 * k.val + j) = laneByte (vecLane w k) j := by
  have h1 : (16 * k.val + j) / 16 = k.val := by omega
  have h2 : (16 * k.val + j) % 16 = j := by omega
  rw [vecByte, h1, h2, show Fin.ofNat 4 k.val = k from Fin.ext (fin4_ofNat_val k.isLt)]

theorem vecElem_lane (w : WideVector) (k : Fin 4) {p : Nat} (hp : p < 4) :
    vecElem w (4 * k.val + p) = laneElem (vecLane w k) p := by
  have h1 : (4 * k.val + p) / 4 = k.val := by omega
  have h2 : (4 * k.val + p) % 4 = p := by omega
  rw [vecElem, h1, h2, show Fin.ofNat 4 k.val = k from Fin.ext (fin4_ofNat_val k.isLt)]

theorem vecElem_vecOfElems (f : Nat → Word) {i : Nat} (hi : i < 16) : vecElem (vecOfElems f) i = f i := by
  rw [vecElem, vecOfElems, vecLane_vecOfLanes, laneElem_laneOfElems _ (Nat.mod_lt _ (by omega)),
    fin4_ofNat_val (by omega), show 4 * (i / 4) + i % 4 = i by omega]

/-- A vector is its sixty-four bytes. -/
theorem vec_ext_bytes {u w : WideVector} (h : ∀ j, j < 64 → vecByte u j = vecByte w j) : u = w := by
  refine vec_ext_lanes fun k => lane_ext_bytes fun i hi => ?_
  rw [← vecByte_lane u k hi, ← vecByte_lane w k hi]
  exact h _ (by omega)

/-- A vector is its sixteen elements. -/
theorem vec_ext_elems {u w : WideVector} (h : ∀ e, e < 16 → vecElem u e = vecElem w e) : u = w := by
  refine vec_ext_lanes fun k => lane_ext_elems fun p hp => ?_
  rw [← vecElem_lane u k hp, ← vecElem_lane w k hp]
  exact h _ (by omega)

/-- Byte `j` of a vector is byte `j mod 4` of element `j div 4` (R51, R52). -/
theorem vecByte_eq_elem (w : WideVector) (j : Nat) :
    vecByte w j = (vecElem w (j / 4)).extractLsb' (8 * (j % 4)) 8 := by
  rw [vecByte, vecElem, laneByte_eq_elem, show j / 4 / 4 = j / 16 by omega,
    show j % 16 / 4 = j / 4 % 4 by omega, show j % 16 % 4 = j % 4 by omega]

@[simp] theorem vecLane_vecMap (f : Lane → Lane) (u : WideVector) (k : Fin 4) :
    vecLane (vecMap f u) k = f (vecLane u k) := vecLane_vecOfLanes _ k

@[simp] theorem vecLane_vecZip (f : Lane → Lane → Lane) (u w : WideVector) (k : Fin 4) :
    vecLane (vecZip f u w) k = f (vecLane u k) (vecLane w k) := vecLane_vecOfLanes _ k

/-! ### Selectors -/

theorem laneSelector_val (imm : Imm) (k : Nat) :
    (laneSelector imm k).val = imm.toNat / 2 ^ (2 * k) % 4 := by
  simp [laneSelector, Nat.shiftRight_eq_div_pow]

end Sys2Proof.Machine
end

