-- ==== Sys2Proof/Laws/Ops.lean ====
section
/-! SUPPORT. One lemma per shared operation that says what it does: the memory port, the four accesses of a window, the
fault status, the reset contents. -/

namespace Sys2Proof.Machine

/-! ### The memory port (R58, R60) -/

theorem State.portDone_iff (s : State) (la : Nat) :
    s.portDone la = true ↔ ∀ j, j < 16 → s.memValid (la + j) = true := by
  simp [State.portDone]

/-- A lane access answered "done" lies inside the address space. -/
theorem State.portDone_le {s : State} {la : Nat} (h : s.portDone la = true) : la + 16 ≤ 2 ^ 64 := by
  have := (State.portDone_iff s la).1 h 15 (by omega)
  simp only [State.memValid, Bool.and_eq_true, decide_eq_true_eq] at this
  omega

theorem State.memRead16_done {s : State} {la : Nat} (h : s.portDone la = true) :
    s.memRead16 la = some (laneOfBytes fun j => s.readByte (la + j)) := if_pos h

theorem State.memRead16_error {s : State} {la : Nat} (h : s.portDone la = false) : s.memRead16 la = none := by
  simp [State.memRead16, h]

theorem State.memWrite16_done {s : State} {la : Nat} (h : s.portDone la = true) (l : Lane) :
    s.memWrite16 la l = some (s.setMem (s.mem.writeBytes la (laneByte l) 16)) := if_pos h

theorem State.memWrite16_error {s : State} {la : Nat} (h : s.portDone la = false) (l : Lane) :
    s.memWrite16 la l = none := by
  simp [State.memWrite16, h]

/-! ### Every operation on the state's memory keeps the canonical form -/

theorem State.wf_memWrite16 {s t : State} {la : Nat} {l : Lane} (hm : s.mem.wf = true) (h : s.memWrite16 la l = some t) :
    t.mem.wf = true := by
  unfold State.memWrite16 at h
  split at h
  · next hd =>
    rw [← Option.some.inj h, State.setMem_mem]
    exact (Memory.writeBytes_spec hm _ (State.portDone_le hd)).1
  · exact absurd h (by simp)

theorem State.wf_storeLanes (w : WideVector) (addr : Nat) (ks : List (Fin 4)) {s : State} (hm : s.mem.wf = true) :
    (storeLanes w addr ks s).1.mem.wf = true := by
  induction ks generalizing s with
  | nil => exact hm
  | cons k ks ih =>
    rw [storeLanes]
    split
    · exact hm
    · next h => exact ih (State.wf_memWrite16 hm h)

theorem State.wf_otherAgentWrite {s : State} (hm : s.mem.wf = true) (a : Nat) (b : Byte) :
    (s.otherAgentWrite a b).mem.wf = true := by
  unfold State.otherAgentWrite
  split
  · next h =>
    simp only [State.memValid, Bool.and_eq_true, decide_eq_true_eq] at h
    rw [State.setMem_mem]
    exact Memory.wf_write hm h.1 b
  · exact hm

/-! ### Ranges of bytes -/

theorem Memory.writeBytes_congr (m : Memory) (a : Nat) {f g : Nat → Byte} {n : Nat} (h : ∀ j, j < n → f j = g j) :
    m.writeBytes a f n = m.writeBytes a g n := by
  induction n with
  | zero => rfl
  | succ n ih => rw [Memory.writeBytes, Memory.writeBytes, ih fun j hj => h j (by omega), h n (by omega)]

theorem Memory.writeBytes_append (m : Memory) (a : Nat) (f : Nat → Byte) (p q : Nat) :
    (m.writeBytes a f p).writeBytes (a + p) (fun j => f (p + j)) q = m.writeBytes a f (p + q) := by
  induction q with
  | zero => rfl
  | succ q ih => rw [Memory.writeBytes, ih, Nat.add_assoc, ← Nat.add_assoc p q 1, Memory.writeBytes]

/-- Writing lane `k` after the bytes of the lanes before it. -/
theorem writeLane_append (m : Memory) (addr : Nat) (w : WideVector) (k : Fin 4) :
    (m.writeBytes addr (vecByte w) (16 * k.val)).writeBytes (laneAddr addr k) (laneByte (vecLane w k)) 16 =
      m.writeBytes addr (vecByte w) (16 * k.val + 16) := by
  rw [← Memory.writeBytes_append, laneAddr]
  exact Memory.writeBytes_congr _ _ fun j hj => (vecByte_lane w k hj).symm

/-! ### The four writes of a window (R131, R133) -/

/-- The first `n` lanes are written when their accesses are answered "done". -/
theorem storeLanes_from (w : WideVector) (addr : Nat) (s : State) (k : Fin 4) (ks : List (Fin 4))
    (h : s.portDone (laneAddr addr k) = true) :
    storeLanes w addr (k :: ks) (s.setMem (s.mem.writeBytes addr (vecByte w) (16 * k.val))) =
      storeLanes w addr ks (s.setMem (s.mem.writeBytes addr (vecByte w) (16 * k.val + 16))) := by
  rw [storeLanes, State.memWrite16_done (by simpa using h)]
  simp only [State.setMem_mem, writeLane_append]
  rfl

theorem storeLanes_stopAt (w : WideVector) (addr : Nat) (s : State) (k : Fin 4) (ks : List (Fin 4))
    (h : s.portDone (laneAddr addr k) = false) (m : Memory) :
    storeLanes w addr (k :: ks) (s.setMem m) = (s.setMem m, some (laneAddr addr k)) := by
  rw [storeLanes, State.memWrite16_error (by simpa using h)]

/-- All four accesses answered "done": the 64 bytes of the window are written. -/
theorem storeLanes_done (w : WideVector) (addr : Nat) (s : State)
    (h : ∀ k : Fin 4, s.portDone (laneAddr addr k) = true) :
    storeLanes w addr laneOrder s = (s.setMem (s.mem.writeBytes addr (vecByte w) 64), none) := by
  have h0 := storeLanes_from w addr s 0 [1, 2, 3] (h 0)
  have h1 := storeLanes_from w addr s 1 [2, 3] (h 1)
  have h2 := storeLanes_from w addr s 2 [3] (h 2)
  have h3 := storeLanes_from w addr s 3 [] (h 3)
  exact h0.trans (h1.trans (h2.trans h3))

/-- The first access answered "error" is that of lane `k`: the lanes before it are written, no other byte changes. -/
theorem storeLanes_error (w : WideVector) (addr : Nat) (s : State) (k : Fin 4)
    (hk : s.portDone (laneAddr addr k) = false) (h : ∀ j, j < k → s.portDone (laneAddr addr j) = true) :
    storeLanes w addr laneOrder s =
      (s.setMem (s.mem.writeBytes addr (vecByte w) (16 * k.val)), some (laneAddr addr k)) := by
  have h0 := fun hd => storeLanes_from w addr s 0 [1, 2, 3] hd
  have h1 := fun hd => storeLanes_from w addr s 1 [2, 3] hd
  have h2 := fun hd => storeLanes_from w addr s 2 [3] hd
  match k, hk, h with
  | 0, hk, _ => exact storeLanes_stopAt w addr s 0 [1, 2, 3] hk _
  | 1, hk, h => exact (h0 (h 0 (by decide))).trans (storeLanes_stopAt w addr s 1 [2, 3] hk _)
  | 2, hk, h =>
    exact (h0 (h 0 (by decide))).trans ((h1 (h 1 (by decide))).trans (storeLanes_stopAt w addr s 2 [3] hk _))
  | 3, hk, h =>
    exact (h0 (h 0 (by decide))).trans ((h1 (h 1 (by decide))).trans
      ((h2 (h 2 (by decide))).trans (storeLanes_stopAt w addr s 3 [] hk _)))

/-! ### The four reads of a window (R130) -/

/-- The vector that a window holds. -/
theorem loadWindow_done (s : State) (addr : Nat) (h : ∀ k : Fin 4, s.portDone (laneAddr addr k) = true) :
    loadWindow s addr = .ok (vecOfLanes fun k => laneOfBytes fun j => s.readByte (laneAddr addr k + j)) := by
  simp only [loadWindow, State.memRead16_done (h 0), State.memRead16_done (h 1), State.memRead16_done (h 2),
    State.memRead16_done (h 3)]
  rfl

theorem loadWindow_error (s : State) (addr : Nat) (k : Fin 4) (hk : s.portDone (laneAddr addr k) = false)
    (h : ∀ j, j < k → s.portDone (laneAddr addr j) = true) : loadWindow s addr = .error (laneAddr addr k) := by
  match k, hk, h with
  | 0, hk, _ => simp only [loadWindow, State.memRead16_error hk]
  | 1, hk, h => simp only [loadWindow, State.memRead16_done (h 0 (by decide)), State.memRead16_error hk]
  | 2, hk, h =>
    simp only [loadWindow, State.memRead16_done (h 0 (by decide)), State.memRead16_done (h 1 (by decide)),
      State.memRead16_error hk]
  | 3, hk, h =>
    simp only [loadWindow, State.memRead16_done (h 0 (by decide)), State.memRead16_done (h 1 (by decide)),
      State.memRead16_done (h 2 (by decide)), State.memRead16_error hk]

/-- Byte `j` of the loaded vector is the byte at `addr + j` (R50, R130). -/
theorem vecByte_loaded (s : State) (addr : Nat) {j : Nat} (hj : j < 64) :
    vecByte (vecOfLanes fun k => laneOfBytes fun i => s.readByte (laneAddr addr k + i)) j = s.readByte (addr + j) := by
  rw [vecByte, vecLane_vecOfLanes, laneByte_laneOfBytes _ (Nat.mod_lt _ (by omega)), laneAddr,
    fin4_ofNat_val (by omega), show addr + 16 * (j / 16) + j % 16 = addr + j by omega]

/-- Either every lane access is answered "done", or some lane is the first answered "error". -/
theorem lanes_done_or_first_error (s : State) (addr : Nat) :
    (∀ k : Fin 4, s.portDone (laneAddr addr k) = true) ∨
      ∃ k : Fin 4, s.portDone (laneAddr addr k) = false ∧ ∀ j, j < k → s.portDone (laneAddr addr j) = true := by
  by_cases h0 : s.portDone (laneAddr addr 0) = true
  · by_cases h1 : s.portDone (laneAddr addr 1) = true
    · by_cases h2 : s.portDone (laneAddr addr 2) = true
      · by_cases h3 : s.portDone (laneAddr addr 3) = true
        · refine .inl fun k => ?_
          match k with
          | 0 => exact h0
          | 1 => exact h1
          | 2 => exact h2
          | 3 => exact h3
        · refine .inr ⟨3, by simpa using h3, fun j hj => ?_⟩
          match j, hj with
          | 0, _ => exact h0
          | 1, _ => exact h1
          | 2, _ => exact h2
      · refine .inr ⟨2, by simpa using h2, fun j hj => ?_⟩
        match j, hj with
        | 0, _ => exact h0
        | 1, _ => exact h1
    · refine .inr ⟨1, by simpa using h1, fun j hj => ?_⟩
      match j, hj with
      | 0, _ => exact h0
  · exact .inr ⟨0, by simpa using h0, fun j hj => absurd hj (Fin.not_lt_zero j)⟩

/-- The window lies inside the address space when its last lane access is answered "done". -/
theorem lanes_done_le {s : State} {addr : Nat} (h : ∀ k : Fin 4, s.portDone (laneAddr addr k) = true) :
    addr + 64 ≤ 2 ^ 64 := by
  have := State.portDone_le (h 3)
  have h3 : laneAddr addr 3 = addr + 48 := rfl
  omega

/-- Sixty-four valid bytes make the four lane accesses "done" (R58). -/
theorem lanes_done_of_valid {s : State} {addr : Nat} (h : ∀ j, j < 64 → s.memValid (addr + j) = true) (k : Fin 4) :
    s.portDone (laneAddr addr k) = true := by
  rw [State.portDone_iff]
  intro j hj
  rw [laneAddr, Nat.add_assoc]
  exact h _ (by omega)

/-! ### The fault status (R30) -/

theorem fstatFault_fstatOf (c : Cause) : fstatFault (fstatOf c) = true := by cases c <;> rfl

theorem fstatCause_fstatOf (c : Cause) : fstatCause (fstatOf c) = causeCode c := by cases c <;> rfl

theorem fstatOf_toNat (c : Cause) : (fstatOf c).toNat = 1 + 2 * (causeCode c).toNat := by cases c <;> rfl

@[simp] theorem State.faultIrq_raiseFault (s : State) (c : Cause) (a : Addr) : (s.raiseFault c a).faultIrq = true :=
  fstatFault_fstatOf c

/-! ### The reset contents of the registers (R37) -/

theorem vFile_get (n : Nat) (r : VReg) : (vFile n)[r.val] = Config.vReset n r := by
  fin_cases r <;> rfl

theorem xFile_get (n : Nat) (r : XReg) : (xFile n)[r.val] = Config.xReset n r := by
  fin_cases r <;> rfl

end Sys2Proof.Machine
end

