-- ==== Sys2Proof/Laws/Frames.lean ====
section
/-! SUPPORT. What the shared ends of a command change: a register write with the advance, taking a fault, a store; and the
sequencer at a command word. -/

namespace Sys2Proof.Machine

theorem onlyV_writeV_advance (s : State) (r : VReg) (w : WideVector) (n : Nat) :
    OnlyV s ((s.writeV r w).advance n) r n :=
  ⟨rfl, fun _ hq => State.readV_writeV_other s w hq, fun _ => rfl, fun _ => rfl, ⟨rfl, rfl, rfl⟩, rfl, rfl, rfl⟩

theorem onlyX_writeX_advance (s : State) (r : XReg) (l : Lane) (n : Nat) :
    OnlyX s ((s.writeX r l).advance n) r n :=
  ⟨rfl, fun _ hq => State.readX_writeX_other s l hq, fun _ => rfl, fun _ => rfl, ⟨rfl, rfl, rfl⟩, rfl, rfl, rfl⟩

theorem onlyMem_setMem_advance (s : State) (m : Memory) (n : Nat) : OnlyMem s ((s.setMem m).advance n) n :=
  ⟨rfl, fun _ => rfl, fun _ => rfl, ⟨rfl, rfl, rfl⟩, rfl, rfl, rfl⟩

theorem faultEntered_raiseFault (s : State) (m : Memory) (c : Cause) (a : Addr) :
    FaultEntered s ((s.setMem m).raiseFault c a) (causeCode c).toNat a :=
  ⟨by cases c <;> rfl, rfl, rfl, State.faultIrq_raiseFault _ c a, rfl, fun _ => rfl, fun _ => rfl, rfl, rfl, rfl⟩

theorem sameMem_raiseFault (s : State) (c : Cause) (a : Addr) : SameMem s (s.raiseFault c a) := fun _ => rfl

/-- Memory after a range of a vector's bytes is stored. -/
theorem stored_writeBytes {s : State} (hm : s.mem.wf = true) (w : WideVector) {addr n : Nat} (h : addr + n ≤ 2 ^ 64)
    {t : State} (ht : t.mem = s.mem.writeBytes addr (vecByte w) n) : Stored s t w addr n := by
  intro a
  rw [State.readByte, ht, (Memory.writeBytes_spec hm (vecByte w) h).2]
  rfl

/-- `FirstError` in the terms of the memory port. -/
theorem firstError_iff (s : State) (addr : Nat) (k : Fin 4) :
    FirstError s addr k ↔ s.portDone (laneAddr addr k) = false ∧ ∀ j, j < k → s.portDone (laneAddr addr j) = true := by
  have hport : ∀ la, s.portDone la = false ↔ ∃ j, j < 16 ∧ s.memValid (la + j) = false := fun la => by
    rw [← Bool.not_eq_true, State.portDone_iff]
    simp
  unfold FirstError
  rw [hport]
  refine and_congr Iff.rfl ⟨fun h j hj => ?_, fun h j hj => ?_⟩
  · rw [State.portDone_iff]
    intro i hi
    rw [laneAddr, Nat.add_assoc]
    exact h _ (by omega)
  · have h1 := (State.portDone_iff s _).1 (h (Fin.ofNat 4 (j / 16)) (by
      rw [Fin.lt_def, fin4_ofNat_val (by omega)]; omega)) (j % 16) (by omega)
    rw [laneAddr, fin4_ofNat_val (by omega), show addr + 16 * (j / 16) + j % 16 = addr + j by omega] at h1
    exact h1

/-- The words fetched at a command word. -/
theorem AtCommand.fetch_eq {s : State} {w : Word} (h : AtCommand s w) :
    s.fetch = w :: s.cmd.drop (s.pc.toNat + 1) := by
  obtain ⟨hlt, hw⟩ := List.getElem?_eq_some_iff.1 h.2.2
  rw [State.fetch, List.drop_eq_getElem_cons hlt, hw]

/-- The sequencer where words are left at `pc` (R94). -/
theorem sequencerStep_running {s : State} (h1 : s.cmd.length < 2 ^ 32) (h2 : s.faultIrq = false)
    (h3 : s.pc.toNat ≠ s.cmd.length) :
    step s = match decode s.fetch with
      | .ok (i, _) => exec i s
      | .error .reservedOpcode => .next (s.raiseFault .illegalCommand 0)
      | .error .reservedField => .next (s.raiseFault .illegalCommand 0)
      | .error .truncated => .fault .truncatedCommand
      | .error .noCommandWord => .fault .pcBeyondStream := by
  rw [step, sequencerStep, if_neg (by omega), if_neg (by simp [h2])]
  exact if_neg h3

end Sys2Proof.Machine
end

