-- ==== Sys2Proof/Laws/Commands.lean ====
section
/-! SUPPORT. What each command can answer: the completed and the faulting ways of `LOADU` and `STOREU`, the element functions
of `MBCAST` and of the AES round, and one inversion lemma for `exec` that every invariant goes through. -/

namespace Sys2Proof.Machine

/-! ### Windows -/

theorem windowFits_iff (addr : Addr) : windowFits addr = true ↔ addr.toNat ≤ 2 ^ 64 - 64 := by simp [windowFits]

theorem windowFits_false_iff (addr : Addr) : windowFits addr = false ↔ 2 ^ 64 - 64 < addr.toNat := by
  simp [windowFits]

theorem windowFits_of_done {s : State} {addr : Addr} (h : ∀ k : Fin 4, s.portDone (laneAddr addr.toNat k) = true) :
    windowFits addr = true := by
  have := lanes_done_le h
  rw [windowFits_iff]
  omega

theorem WindowValid.le {s : State} {addr : Nat} (h : WindowValid s addr) : addr + 64 ≤ 2 ^ 64 :=
  lanes_done_le (lanes_done_of_valid h)

theorem FirstError.not_done {s : State} {addr : Nat} {k : Fin 4} (h : FirstError s addr k) :
    ¬ ∀ j, s.portDone (laneAddr addr j) = true := fun hd => by
  have := ((firstError_iff s addr k).1 h).1
  rw [hd k] at this
  cases this

theorem FirstError.unique {s : State} {addr : Nat} {k j : Fin 4} (hk : FirstError s addr k) (hj : FirstError s addr j) :
    k = j := by
  rw [firstError_iff] at hk hj
  rcases lt_trichotomy k j with h | h | h
  · have := hj.2 k h
    rw [hk.1] at this
    cases this
  · exact h
  · have := hk.2 j h
    rw [hj.1] at this
    cases this

/-- The address of the lane access at which a window fails. -/
theorem ofNat_laneAddr (addr : Addr) (k : Fin 4) :
    BitVec.ofNat 64 (laneAddr addr.toNat k) = addr + BitVec.ofNat 64 (16 * k.val) := by
  apply BitVec.eq_of_toNat_eq
  simp [laneAddr]

/-! ### `LOADU` and `STOREU` (R130, R131) -/

/-- `LOADU` faults at the window check, or loads the window, or faults at the first lane answered "error". -/
theorem execLoadu_cases (vd : VReg) (addr : Addr) (s : State) :
    (2 ^ 64 - 64 < addr.toNat ∧ execLoadu vd addr s = .next (s.raiseFault .loadAccess addr)) ∨
    ((∀ k : Fin 4, s.portDone (laneAddr addr.toNat k) = true) ∧
      ∃ w, (∀ j, j < 64 → vecByte w j = s.readByte (addr.toNat + j)) ∧
        execLoadu vd addr s = .next ((s.writeV vd w).advance 3)) ∨
    ∃ k, addr.toNat ≤ 2 ^ 64 - 64 ∧ FirstError s addr.toNat k ∧
      execLoadu vd addr s = .next (s.raiseFault .loadAccess (addr + BitVec.ofNat 64 (16 * k.val))) := by
  unfold execLoadu
  by_cases h : windowFits addr = true
  · rw [if_pos h]
    rcases lanes_done_or_first_error s addr.toNat with hd | ⟨k, hk, hj⟩
    · exact .inr (.inl ⟨hd, _, fun j => vecByte_loaded s addr.toNat, by rw [loadWindow_done s _ hd]⟩)
    · refine .inr (.inr ⟨k, (windowFits_iff addr).1 h, (firstError_iff s _ k).2 ⟨hk, hj⟩, ?_⟩)
      rw [loadWindow_error s _ k hk hj]
      simp only [ofNat_laneAddr]
  · rw [if_neg h]
    exact .inl ⟨(windowFits_false_iff addr).1 (by simpa using h), rfl⟩

/-- `STOREU` faults at the window check, or stores the window, or stores the lanes before the first one answered "error"
and faults there. -/
theorem execStoreu_cases (vs1 : VReg) (addr : Addr) (s : State) :
    (2 ^ 64 - 64 < addr.toNat ∧ execStoreu vs1 addr s = .next (s.raiseFault .storeAccess addr)) ∨
    ((∀ k : Fin 4, s.portDone (laneAddr addr.toNat k) = true) ∧
      ∃ m, m = s.mem.writeBytes addr.toNat (vecByte (s.readV vs1)) 64 ∧
        execStoreu vs1 addr s = .next ((s.setMem m).advance 3)) ∨
    ∃ k m, addr.toNat ≤ 2 ^ 64 - 64 ∧ FirstError s addr.toNat k ∧
      m = s.mem.writeBytes addr.toNat (vecByte (s.readV vs1)) (16 * k.val) ∧
      execStoreu vs1 addr s = .next ((s.setMem m).raiseFault .storeAccess (addr + BitVec.ofNat 64 (16 * k.val))) := by
  unfold execStoreu
  by_cases h : windowFits addr = true
  · rw [if_pos h]
    rcases lanes_done_or_first_error s addr.toNat with hd | ⟨k, hk, hj⟩
    · exact .inr (.inl ⟨hd, _, rfl, by rw [storeLanes_done _ _ s hd]⟩)
    · refine .inr (.inr ⟨k, _, (windowFits_iff addr).1 h, (firstError_iff s _ k).2 ⟨hk, hj⟩, rfl, ?_⟩)
      rw [storeLanes_error _ _ s k hk hj]
      simp only [ofNat_laneAddr]
  · rw [if_neg h]
    exact .inl ⟨(windowFits_false_iff addr).1 (by simpa using h), rfl⟩

theorem execLoadu_valid (vd : VReg) {addr : Addr} {s : State} (h : WindowValid s addr.toNat) :
    ∃ w, (∀ j, j < 64 → vecByte w j = s.readByte (addr.toNat + j)) ∧
      execLoadu vd addr s = .next ((s.writeV vd w).advance 3) := by
  have hd := lanes_done_of_valid h
  rcases execLoadu_cases vd addr s with ⟨h1, -⟩ | ⟨-, h1⟩ | ⟨k, -, h1, -⟩
  · have := (windowFits_iff addr).1 (windowFits_of_done hd)
    omega
  · exact h1
  · exact absurd hd h1.not_done

theorem execStoreu_valid (vs1 : VReg) {addr : Addr} {s : State} (h : WindowValid s addr.toNat) :
    ∃ m, m = s.mem.writeBytes addr.toNat (vecByte (s.readV vs1)) 64 ∧
      execStoreu vs1 addr s = .next ((s.setMem m).advance 3) := by
  have hd := lanes_done_of_valid h
  rcases execStoreu_cases vs1 addr s with ⟨h1, -⟩ | ⟨-, h1⟩ | ⟨k, m, -, h1, -⟩
  · have := (windowFits_iff addr).1 (windowFits_of_done hd)
    omega
  · exact h1
  · exact absurd hd h1.not_done

/-- The first `k` lanes of a valid window, at most four, are written without an error. -/
theorem storeLanes_take (w : WideVector) (addr : Nat) (s : State)
    (h : ∀ k : Fin 4, s.portDone (laneAddr addr k) = true) (k : Nat) :
    storeLanes w addr (laneOrder.take k) s = (s.setMem (s.mem.writeBytes addr (vecByte w) (16 * min k 4)), none) := by
  have run := fun (i : Fin 4) ks => storeLanes_from w addr s i ks (h i)
  match k with
  | 0 => rfl
  | 1 => exact run 0 []
  | 2 => exact (run 0 [1]).trans (run 1 [])
  | 3 => exact (run 0 [1, 2]).trans ((run 1 [2]).trans (run 2 []))
  | k + 4 =>
    rw [Nat.min_eq_right (Nat.le_add_left 4 k), List.take_of_length_le (Nat.le_add_left 4 k)]
    exact storeLanes_done w addr s h

/-- The first `k` lanes of a window whose lane `j` is the first answered "error": the lanes before both are written. -/
theorem storeLanes_take_error (w : WideVector) (addr : Nat) (s : State) (j : Fin 4) (hj : s.portDone (laneAddr addr j) = false)
    (h : ∀ i, i < j → s.portDone (laneAddr addr i) = true) (k : Nat) :
    (storeLanes w addr (laneOrder.take k) s).1 = s.setMem (s.mem.writeBytes addr (vecByte w) (16 * min k j.val)) := by
  have run := fun (i : Fin 4) hi ks => storeLanes_from w addr s i ks (h i hi)
  have stop := fun ks m => congrArg Prod.fst (storeLanes_stopAt w addr s j ks hj m)
  match j, k, run, stop with
  | _, 0, _, _ => rw [Nat.zero_min]; rfl
  | 0, k + 1, _, stop => exact stop _ _
  | 1, 1, run, _ => exact congrArg Prod.fst (run 0 (by decide) [])
  | 1, k + 2, run, stop =>
    rw [show min (k + 2) (1 : Fin 4).val = 1 from Nat.min_eq_right (Nat.le_add_left 1 (k + 1))]
    exact (congrArg Prod.fst (run 0 (by decide) _)).trans (stop _ _)
  | 2, 1, run, _ => exact congrArg Prod.fst (run 0 (by decide) [])
  | 2, 2, run, _ => exact congrArg Prod.fst ((run 0 (by decide) [1]).trans (run 1 (by decide) []))
  | 2, k + 3, run, stop =>
    rw [show min (k + 3) (2 : Fin 4).val = 2 from Nat.min_eq_right (Nat.le_add_left 2 (k + 1))]
    exact (congrArg Prod.fst ((run 0 (by decide) _).trans (run 1 (by decide) _))).trans (stop _ _)
  | 3, 1, run, _ => exact congrArg Prod.fst (run 0 (by decide) [])
  | 3, 2, run, _ => exact congrArg Prod.fst ((run 0 (by decide) [1]).trans (run 1 (by decide) []))
  | 3, 3, run, _ =>
    exact congrArg Prod.fst ((run 0 (by decide) [1, 2]).trans ((run 1 (by decide) [2]).trans (run 2 (by decide) [])))
  | 3, k + 4, run, stop =>
    rw [show min (k + 4) (3 : Fin 4).val = 3 from Nat.min_eq_right (Nat.le_add_left 3 (k + 1))]
    exact (congrArg Prod.fst ((run 0 (by decide) _).trans ((run 1 (by decide) _).trans (run 2 (by decide) _)))).trans
      (stop _ _)

/-! ### Lane-wise commands -/

/-- A command that applies a function to each lane pair. -/
theorem vecLane_vvv (f : Lane → Lane → Lane) (vd vs1 vs2 : VReg) (s : State) (k : Fin 4) :
    vecLane ((vvv (vecZip f) vd vs1 vs2 s).readV vd) k = f (vecLane (s.readV vs1) k) (vecLane (s.readV vs2) k) := by
  simp [vvv]

theorem onlyV_vvv (f : WideVector → WideVector → WideVector) (vd vs1 vs2 : VReg) (s : State) :
    OnlyV s (vvv f vd vs1 vs2 s) vd 1 := onlyV_writeV_advance s vd _ 1

/-- The exclusive-or/and select picks by the mask bit (R201). -/
theorem selectXorAnd_elementMask (src x : Word) (mask : Imm) (i : Nat) :
    selectXorAnd src x (elementMask mask i) = if maskBit mask i then x else src := by
  unfold selectXorAnd elementMask
  cases maskBit mask i
  · simp
  · have : (0xFFFFFFFF : Word) = BitVec.allOnes 32 := rfl
    simp only [if_true, this, BitVec.and_allOnes, ← BitVec.xor_assoc, BitVec.xor_self, BitVec.zero_xor]

/-! ### The AES round, byte by byte (R162 to R165) -/

theorem shiftRowsSource_lt (i : Nat) : shiftRowsSource i < 16 := by
  unfold shiftRowsSource
  omega

theorem laneByte_subBytes (l : Lane) {i : Nat} (hi : i < 16) : laneByte (subBytes l) i = sbox (laneByte l i) :=
  laneByte_laneOfBytes _ hi

theorem laneByte_shiftRows (l : Lane) {i : Nat} (hi : i < 16) :
    laneByte (shiftRows l) i = laneByte l (shiftRowsSource i) := laneByte_laneOfBytes _ hi

theorem laneByte_mixColumns (l : Lane) {i : Nat} (hi : i < 16) :
    laneByte (mixColumns l) i = mixRow (i % 4) (laneByte l (4 * (i / 4))) (laneByte l (4 * (i / 4) + 1))
      (laneByte l (4 * (i / 4) + 2)) (laneByte l (4 * (i / 4) + 3)) := laneByte_laneOfBytes _ hi

/-! ### What `exec` can answer -/

theorem next_inj {s t : State} (h : (Host.Outcome.next s : Host.Outcome State Fault Refusal) = .next t) : s = t := by
  cases h
  rfl

/-- A next state of a command is one of: one vector register written, or one lane register, or a window stored, each with
the advance by its length; or a fault entered, with the lanes before the failing one stored. -/
theorem exec_cases {i : Instr} {s t : State} (h : exec i s = .next t) :
    (∃ vd w, destV i = some vd ∧ t = (s.writeV vd w).advance i.words) ∨
    (∃ xd l, destX i = some xd ∧ t = (s.writeX xd l).advance i.words) ∨
    (∃ vs1 addr m, i = .storeu vs1 addr ∧ addr.toNat + 64 ≤ 2 ^ 64 ∧
      m = s.mem.writeBytes addr.toNat (vecByte (s.readV vs1)) 64 ∧ t = (s.setMem m).advance i.words) ∨
    (∃ vd addr, i = .loadu vd addr ∧ 2 ^ 64 - 64 < addr.toNat ∧ t = s.raiseFault .loadAccess addr) ∨
    (∃ vd addr k, i = .loadu vd addr ∧ addr.toNat ≤ 2 ^ 64 - 64 ∧ FirstError s addr.toNat k ∧
      t = s.raiseFault .loadAccess (addr + BitVec.ofNat 64 (16 * k.val))) ∨
    (∃ vs1 addr, i = .storeu vs1 addr ∧ 2 ^ 64 - 64 < addr.toNat ∧ t = s.raiseFault .storeAccess addr) ∨
    (∃ vs1 addr k m, i = .storeu vs1 addr ∧ addr.toNat ≤ 2 ^ 64 - 64 ∧ FirstError s addr.toNat k ∧
      m = s.mem.writeBytes addr.toNat (vecByte (s.readV vs1)) (16 * k.val) ∧
      t = (s.setMem m).raiseFault .storeAccess (addr + BitVec.ofNat 64 (16 * k.val))) := by
  cases i with
  | setr vd e =>
    rw [exec, execSetr] at h
    split at h
    · exact .inl ⟨vd, _, rfl, (next_inj h).symm⟩
    · cases h
  | loadu vd addr =>
    rcases execLoadu_cases vd addr s with ⟨h1, h2⟩ | ⟨-, w, -, h2⟩ | ⟨k, h1, hk, h2⟩ <;> rw [exec, h2] at h
    · exact .inr (.inr (.inr (.inl ⟨vd, addr, rfl, h1, (next_inj h).symm⟩)))
    · exact .inl ⟨vd, w, rfl, (next_inj h).symm⟩
    · exact .inr (.inr (.inr (.inr (.inl ⟨vd, addr, k, rfl, h1, hk, (next_inj h).symm⟩))))
  | storeu vs1 addr =>
    rcases execStoreu_cases vs1 addr s with ⟨h1, h2⟩ | ⟨hd, m, hm, h2⟩ | ⟨k, m, h1, hk, hm, h2⟩ <;> rw [exec, h2] at h
    · exact .inr (.inr (.inr (.inr (.inr (.inl ⟨vs1, addr, rfl, h1, (next_inj h).symm⟩)))))
    · exact .inr (.inr (.inl ⟨vs1, addr, m, rfl, lanes_done_le hd, hm, (next_inj h).symm⟩))
    · exact .inr (.inr (.inr (.inr (.inr (.inr ⟨vs1, addr, k, m, rfl, h1, hk, hm, (next_inj h).symm⟩)))))
  | extr xd _ _ => exact .inr (.inl ⟨xd, _, rfl, (next_inj h).symm⟩)
  | vxor vd _ _ => exact .inl ⟨vd, _, rfl, (next_inj h).symm⟩
  | vor vd _ _ => exact .inl ⟨vd, _, rfl, (next_inj h).symm⟩
  | vand vd _ _ => exact .inl ⟨vd, _, rfl, (next_inj h).symm⟩
  | aesrnd vd _ _ => exact .inl ⟨vd, _, rfl, (next_inj h).symm⟩
  | shuf vd _ _ _ => exact .inl ⟨vd, _, rfl, (next_inj h).symm⟩
  | bcast vd _ => exact .inl ⟨vd, _, rfl, (next_inj h).symm⟩
  | ins vd _ _ _ => exact .inl ⟨vd, _, rfl, (next_inj h).symm⟩
  | mbcast vd _ _ _ => exact .inl ⟨vd, _, rfl, (next_inj h).symm⟩
  | sll vd _ _ => exact .inl ⟨vd, _, rfl, (next_inj h).symm⟩
  | srl vd _ _ => exact .inl ⟨vd, _, rfl, (next_inj h).symm⟩

/-- A well-formed command answers a next state. -/
theorem exec_answers {i : Instr} (hi : i.WellFormed) (s : State) : ∃ t, exec i s = .next t := by
  cases i with
  | setr vd e => exact ⟨_, by rw [exec, execSetr, if_pos ((Instr.wellFormed_setr vd e).1 hi)]⟩
  | loadu vd addr =>
    rcases execLoadu_cases vd addr s with ⟨-, h⟩ | ⟨-, w, -, h⟩ | ⟨k, -, -, h⟩ <;> exact ⟨_, h⟩
  | storeu vs1 addr =>
    rcases execStoreu_cases vs1 addr s with ⟨-, h⟩ | ⟨-, m, -, h⟩ | ⟨k, m, -, -, -, h⟩ <;> exact ⟨_, h⟩
  | vxor | vor | vand | aesrnd | shuf | extr | bcast | ins | mbcast | sll | srl => exact ⟨_, rfl⟩

/-- No command answers a fault of the model: the stops are the sequencer's. -/
theorem exec_ne_fault (i : Instr) (s : State) (f : Fault) : exec i s ≠ .fault f := by
  by_cases hi : i.WellFormed
  · obtain ⟨t, h⟩ := exec_answers hi s
    rw [h]
    simp
  · cases i with
    | setr vd e =>
      rw [exec, execSetr, if_neg (fun he => hi ((Instr.wellFormed_setr vd e).2 he))]
      simp
    | _ => exact absurd rfl hi

end Sys2Proof.Machine
end

