-- ==== Sys2Proof/Laws/HostPort.lean ====
section
/-! SUPPORT. The moves of the outside world: what a delivery, another agent's write and a reset in the middle of a command leave
of the state. -/

namespace Sys2Proof.Machine

/-- A running block takes the words it is given. -/
theorem State.deliver_running {s : State} (h : s.faultIrq = false) (ws : List Word) :
    s.deliver ws = { s with cmd := s.cmd ++ ws } := by
  rw [State.deliver, if_neg (by simp [h])]

/-- A halted block accepts no word (R227). -/
theorem State.deliver_halted {s : State} (h : s.faultIrq = true) (ws : List Word) : s.deliver ws = s := by
  rw [State.deliver, if_pos h]

/-- Another agent's write changes memory only, and keeps its canonical form. -/
theorem State.otherAgentWrite_cases (s : State) (a : Nat) (b : Byte) :
    ∃ m, s.otherAgentWrite a b = s.setMem m ∧ (s.mem.wf = true → m.wf = true) := by
  refine ⟨(s.otherAgentWrite a b).mem, ?_, fun hm => State.wf_otherAgentWrite hm a b⟩
  unfold State.otherAgentWrite
  split <;> rfl

/-- The lane writes of a store change memory only. -/
theorem storeLanes_fst (w : WideVector) (addr : Nat) (ks : List (Fin 4)) (s : State) :
    ∃ m, (storeLanes w addr ks s).1 = s.setMem m := by
  induction ks generalizing s with
  | nil => exact ⟨s.mem, rfl⟩
  | cons k ks ih =>
    by_cases h : s.portDone (laneAddr addr k) = true
    · rw [storeLanes, State.memWrite16_done h]
      generalize s.mem.writeBytes _ _ _ = m
      obtain ⟨m', h'⟩ := ih (s.setMem m)
      exact ⟨m', h'⟩
    · rw [storeLanes, State.memWrite16_error (by simpa using h)]
      exact ⟨s.mem, rfl⟩

/-- A reset between two commands, but for memory. -/
theorem asResetLeaves_resetEvent (s : State) (m : Memory) : AsResetLeaves s (s.setMem m).resetEvent :=
  ⟨rfl, rfl, rfl, rfl, rfl, rfl, rfl, fun r => vFile_get _ r, fun r => xFile_get _ r⟩

/-- A reset in the middle of a command is a reset with the memory of that moment. -/
theorem State.resetDuringStore_cases (s : State) (k : Nat) :
    ∃ m, s.resetDuringStore k = (s.setMem m).resetEvent ∧ (s.mem.wf = true → m.wf = true) := by
  have none : ∃ m, s.resetEvent = (s.setMem m).resetEvent ∧ (s.mem.wf = true → m.wf = true) := ⟨s.mem, rfl, id⟩
  unfold State.resetDuringStore
  split
  · exact none
  · split
    · next vs1 addr _ _ =>
      split
      · obtain ⟨m, h⟩ := storeLanes_fst (s.readV vs1) addr.toNat (laneOrder.take k) s
        refine ⟨m, by rw [h], fun hm => ?_⟩
        have hw := State.wf_storeLanes (s.readV vs1) addr.toNat (laneOrder.take k) hm
        rw [h] at hw
        exact hw
      · exact none
    · exact none

/-- A reset of a halted block leaves memory alone. -/
theorem State.resetDuringStore_halted {s : State} (h : s.faultIrq = true) (k : Nat) :
    s.resetDuringStore k = s.resetEvent := by
  rw [State.resetDuringStore, if_pos h]

/-- A reset of a running block that does not stand at a `STOREU` leaves memory alone. -/
theorem State.resetDuringStore_other {s : State}
    (h : ∀ vs1 addr rest, decode s.fetch ≠ .ok (.storeu vs1 addr, rest)) (k : Nat) :
    s.resetDuringStore k = s.resetEvent := by
  unfold State.resetDuringStore
  split
  · rfl
  · split
    · next vs1 addr rest hd => exact absurd hd (h vs1 addr rest)
    · rfl

/-- A reset of a running block that stands at a `STOREU`. -/
theorem State.resetDuringStore_storeu {s : State} {vs1 : VReg} {addr : Addr} {rest : List Word} (hf : s.faultIrq = false)
    (hd : decode s.fetch = .ok (.storeu vs1 addr, rest)) (k : Nat) :
    s.resetDuringStore k =
      if windowFits addr then (storeLanes (s.readV vs1) addr.toNat (laneOrder.take k) s).1.resetEvent
      else s.resetEvent := by
  rw [State.resetDuringStore, if_neg (by simp [hf]), hd]

end Sys2Proof.Machine
end

