-- ==== Sys2Proof/Laws/Legality.lean ====
section
/-! SUPPORT. Legal command words: a word that no row of the opcode map hits is one the decoder rejects (30_encoding.md R86 to
R88), and a legal word with enough words after it decodes (R90). -/

namespace Sys2Proof.Machine

/-! ### The fields of a word, put together -/

theorem word_append (w : Word) :
    w = (immField w ++ rs2Field w ++ rs1Field w ++ rdField w ++ opField w : BitVec 32) := by
  apply BitVec.eq_of_getLsbD_eq
  intro j hj
  simp only [BitVec.getLsbD_append, immField, rs2Field, rs1Field, rdField, opField, BitVec.getLsbD_extractLsb']
  interval_cases j <;> simp

theorem append_eq_iff (i j : BitVec 16) (a b c d a' b' c' d' : BitVec 4) :
    (i ++ a ++ b ++ c ++ d : BitVec 32) = (j ++ a' ++ b' ++ c' ++ d' : BitVec 32) ↔
      i = j ∧ a = a' ∧ b = b' ∧ c = c' ∧ d = d' := by
  constructor
  · intro h
    have e : ∀ k, BitVec.getLsbD (i ++ a ++ b ++ c ++ d : BitVec 32) k =
        BitVec.getLsbD (j ++ a' ++ b' ++ c' ++ d' : BitVec 32) k := fun k => by rw [h]
    simp only [BitVec.getLsbD_append] at e
    refine ⟨?_, ?_, ?_, ?_, ?_⟩ <;> apply BitVec.eq_of_getLsbD_eq <;> intro k hk
    · have := e (k + 16); interval_cases k <;> simpa using this
    · have := e (k + 12); interval_cases k <;> simpa using this
    · have := e (k + 8); interval_cases k <;> simpa using this
    · have := e (k + 4); interval_cases k <;> simpa using this
    · have := e k; interval_cases k <;> simpa using this
  · rintro ⟨rfl, rfl, rfl, rfl, rfl⟩
    rfl

/-- A row hits a word when each field, masked, is the row's. -/
theorem hits_iff (w : Word) (i : BitVec 16) (a b c d : BitVec 4) (i' : BitVec 16) (a' b' c' d' : BitVec 4)
    (n : String) (l : Nat) :
    OpcodeRow.hits ⟨n, (i ++ a ++ b ++ c ++ d : BitVec 32), (i' ++ a' ++ b' ++ c' ++ d' : BitVec 32), l⟩ w = true ↔
      immField w &&& i' = i ∧ rs2Field w &&& a' = a ∧ rs1Field w &&& b' = b ∧ rdField w &&& c' = c ∧
        opField w &&& d' = d := by
  rw [OpcodeRow.hits, beq_iff_eq]
  conv_lhs => lhs; lhs; rw [word_append w]
  rw [BitVec.and_append, BitVec.and_append, BitVec.and_append, BitVec.and_append, append_eq_iff]

theorem and_ones4 (x : BitVec 4) : x &&& 15#4 = x := by decide +revert

theorem and_zero4 (x : BitVec 4) : x &&& 0#4 = 0#4 := by decide +revert

theorem and_ones16 (x : BitVec 16) : x &&& 65535#16 = x := by
  rw [show 65535#16 = BitVec.allOnes 16 from rfl, BitVec.and_allOnes]

/-- The rows of the opcode map, field by field. -/
theorem opcodeRows_fields : opcodeRows =
    [⟨"SETR", 0#16 ++ 0#4 ++ 0#4 ++ 0#4 ++ 1#4, 0xFFFF#16 ++ 15#4 ++ 15#4 ++ 0#4 ++ 15#4, 17⟩,
     ⟨"LOADU", 0#16 ++ 0#4 ++ 0#4 ++ 0#4 ++ 2#4, 0xFFFF#16 ++ 15#4 ++ 15#4 ++ 0#4 ++ 15#4, 3⟩,
     ⟨"STOREU", 0#16 ++ 0#4 ++ 0#4 ++ 0#4 ++ 3#4, 0xFFFF#16 ++ 15#4 ++ 0#4 ++ 15#4 ++ 15#4, 3⟩,
     ⟨"VXOR", 0#16 ++ 0#4 ++ 0#4 ++ 0#4 ++ 4#4, 0xFFFF#16 ++ 0#4 ++ 0#4 ++ 0#4 ++ 15#4, 1⟩,
     ⟨"VOR", 0#16 ++ 0#4 ++ 0#4 ++ 0#4 ++ 5#4, 0xFFFF#16 ++ 0#4 ++ 0#4 ++ 0#4 ++ 15#4, 1⟩,
     ⟨"VAND", 0#16 ++ 0#4 ++ 0#4 ++ 0#4 ++ 6#4, 0xFFFF#16 ++ 0#4 ++ 0#4 ++ 0#4 ++ 15#4, 1⟩,
     ⟨"AESRND", 0#16 ++ 0#4 ++ 0#4 ++ 0#4 ++ 7#4, 0xFFFF#16 ++ 0#4 ++ 0#4 ++ 0#4 ++ 15#4, 1⟩] ++
    [⟨"SHUF", 0#16 ++ 0#4 ++ 0#4 ++ 0#4 ++ 8#4, 0#16 ++ 0#4 ++ 0#4 ++ 0#4 ++ 15#4, 1⟩,
     ⟨"EXTR", 0#16 ++ 0#4 ++ 0#4 ++ 0#4 ++ 9#4, 0#16 ++ 15#4 ++ 0#4 ++ 0#4 ++ 15#4, 1⟩,
     ⟨"BCAST", 0#16 ++ 0#4 ++ 0#4 ++ 0#4 ++ 10#4, 0xFFFF#16 ++ 0#4 ++ 15#4 ++ 0#4 ++ 15#4, 1⟩,
     ⟨"INS", 0#16 ++ 0#4 ++ 0#4 ++ 0#4 ++ 11#4, 0#16 ++ 0#4 ++ 0#4 ++ 0#4 ++ 15#4, 1⟩,
     ⟨"MBCAST", 0#16 ++ 0#4 ++ 0#4 ++ 0#4 ++ 12#4, 0#16 ++ 0#4 ++ 0#4 ++ 0#4 ++ 15#4, 1⟩,
     ⟨"SLL", 0#16 ++ 0#4 ++ 0#4 ++ 0#4 ++ 13#4, 0#16 ++ 15#4 ++ 0#4 ++ 0#4 ++ 15#4, 1⟩,
     ⟨"SRL", 0#16 ++ 0#4 ++ 0#4 ++ 0#4 ++ 14#4, 0#16 ++ 15#4 ++ 0#4 ++ 0#4 ++ 15#4, 1⟩] := by decide

/-! ### Legal and illegal words -/

/-- No row hits a word exactly when the decoder rejects it. -/
theorem illegal_iff (w : Word) : IllegalWord w ↔ opReserved w = true ∨ reservedFieldsZero w = false := by
  unfold IllegalWord
  rw [opcodeRows_fields]
  simp only [List.cons_append, List.nil_append, List.forall_mem_cons, ← Bool.not_eq_true, hits_iff, and_ones4, and_zero4,
    and_ones16, true_and]
  rw [opReserved, reservedFieldsZero]
  generalize opField w = o
  generalize immField w = i
  generalize rs1Field w = a
  generalize rs2Field w = b
  generalize rdField w = c
  have : o = 0#4 ∨ o = 1#4 ∨ o = 2#4 ∨ o = 3#4 ∨ o = 4#4 ∨ o = 5#4 ∨ o = 6#4 ∨ o = 7#4 ∨ o = 8#4 ∨ o = 9#4 ∨
      o = 10#4 ∨ o = 11#4 ∨ o = 12#4 ∨ o = 13#4 ∨ o = 14#4 ∨ o = 15#4 := by decide +revert
  rcases this with rfl | rfl | rfl | rfl | rfl | rfl | rfl | rfl | rfl | rfl | rfl | rfl | rfl | rfl | rfl | rfl <;>
    simp <;> tauto

theorem legal_of_not_illegal {w : Word} (h : ¬ IllegalWord w) : opReserved w = false ∧ reservedFieldsZero w = true := by
  rw [illegal_iff, not_or] at h
  exact ⟨by simpa using h.1, by simpa using h.2⟩

/-- What decodes begins with a legal word. -/
theorem not_illegal_of_decode {w : Word} {ws rest : List Word} {i : Instr} (h : decode (w :: ws) = .ok (i, rest)) :
    ¬ IllegalWord w := by
  obtain ⟨_, _, e, h1, h2, -⟩ := decode_ok h
  cases e
  rw [illegal_iff, h1, h2]
  simp

/-- The opcode, length and words of what decodes. -/
theorem decode_length {w : Word} {ws rest : List Word} {i : Instr} (h : decode (w :: ws) = .ok (i, rest)) :
    (w :: ws).length = rest.length + i.words ∧ i.words = lengthOfOp (opField w) := by
  obtain ⟨_, _, e, h1, h2, h3⟩ := decode_ok h
  cases e
  unfold decodeLegal at h3
  unfold reservedFieldsZero at h2
  rw [opReserved] at h1
  unfold lengthOfOp
  generalize ho : (opField w).toNat = o at *
  have hlt : o < 16 := ho ▸ (opField w).isLt
  interval_cases o <;> simp at h1 h2 h3
  · obtain ⟨e, he, rfl, rfl⟩ := takeElems_ok h3
    exact ⟨by simp [he, Instr.words]; omega, rfl⟩
  · obtain ⟨lo, hi, rfl, rfl⟩ := takeAddr_ok h3
    exact ⟨rfl, rfl⟩
  · obtain ⟨lo, hi, rfl, rfl⟩ := takeAddr_ok h3
    exact ⟨rfl, rfl⟩
  all_goals
    obtain ⟨rfl, rfl⟩ := h3
    exact ⟨rfl, rfl⟩

/-- A legal word whose length the list holds decodes. -/
theorem decode_of_length {w : Word} {ws : List Word} (hl : ¬ IllegalWord w)
    (h : lengthOfOp (opField w) ≤ ws.length + 1) : ∃ i rest, decode (w :: ws) = .ok (i, rest) := by
  obtain ⟨l1, l2⟩ := legal_of_not_illegal hl
  rw [decode_cons l1 l2]
  unfold decodeLegal
  rw [opReserved] at l1
  unfold lengthOfOp at h
  have hlt : (opField w).toNat < 16 := (opField w).isLt
  generalize (opField w).toNat = o at *
  interval_cases o <;> simp at l1 h ⊢
  · simp [takeElems, h]
  · match ws, h with
    | a :: b :: t, _ => simp [takeAddr]
  · match ws, h with
    | a :: b :: t, _ => simp [takeAddr]

/-- A legal word whose payload the list does not hold is truncated. -/
theorem decode_truncated {w : Word} {ws : List Word} (hl : ¬ IllegalWord w)
    (h : ws.length + 1 < lengthOfOp (opField w)) : decode (w :: ws) = .error .truncated := by
  obtain ⟨l1, l2⟩ := legal_of_not_illegal hl
  rw [decode_cons l1 l2]
  unfold decodeLegal
  rw [opReserved] at l1
  unfold lengthOfOp at h
  have hlt : (opField w).toNat < 16 := (opField w).isLt
  generalize (opField w).toNat = o at *
  interval_cases o <;> simp at l1 h ⊢ <;> try omega
  · rw [takeElems, if_neg (by omega)]
  · match ws, h with
    | [], _ => rfl
    | [_], _ => rfl
  · match ws, h with
    | [], _ => rfl
    | [_], _ => rfl

/-- An illegal word is rejected as reserved, whatever follows it (R90). -/
theorem decode_illegal {w : Word} (ws : List Word) (h : IllegalWord w) :
    decode (w :: ws) = .error .reservedOpcode ∨ decode (w :: ws) = .error .reservedField := by
  by_cases h1 : opReserved w = true
  · exact .inl (by simp [decode, h1])
  · rcases (illegal_iff w).1 h with h2 | h2
    · exact absurd h2 h1
    · exact .inr (by simp [decode, h1, h2])

end Sys2Proof.Machine
end

