-- ==== Sys2Proof/Laws/PerInstr.lean ====
section
/-! SUPPORT. One lemma per command about its words: how many there are, and that the decoder's length table agrees
(30_encoding.md R80, R90). -/

namespace Sys2Proof.Laws.EncodedLength

/-- The encoded command has the length that R80 gives it, and `op` of its command word says so (R90). -/
def Statement (i : Instr) : Prop :=
  i.WellFormed → ∃ w t, encode i = w :: t ∧ (encode i).length = i.words ∧ lengthOfOp (opField w) = i.words

theorem lengthOfOp_commandWord {op rd rs1 rs2 imm : Nat} (hop : op < 16) (hrd : rd < 16) (h1 : rs1 < 16)
    (h2 : rs2 < 16) (hi : imm < 65536) :
    lengthOfOp (opField (commandWord op rd rs1 rs2 imm)) = if op = 1 then 17 else if op = 2 ∨ op = 3 then 3 else 1 := by
  rw [lengthOfOp, opField_commandWord hop hrd h1 h2 hi]

theorem setr (vd : VReg) (e : List Word) : Statement (.setr vd e) := fun h =>
  ⟨_, _, rfl, congrArg (· + 1) ((Instr.wellFormed_setr vd e).1 h),
    lengthOfOp_commandWord (by decide) vd.isLt (by decide) (by decide) (by decide)⟩

theorem loadu (vd : VReg) (addr : Addr) : Statement (.loadu vd addr) := fun _ =>
  ⟨_, _, rfl, rfl, lengthOfOp_commandWord (by decide) vd.isLt (by decide) (by decide) (by decide)⟩

theorem storeu (vs1 : VReg) (addr : Addr) : Statement (.storeu vs1 addr) := fun _ =>
  ⟨_, _, rfl, rfl, lengthOfOp_commandWord (by decide) (by decide) vs1.isLt (by decide) (by decide)⟩

theorem vxor (vd vs1 vs2 : VReg) : Statement (.vxor vd vs1 vs2) := fun _ =>
  ⟨_, _, rfl, rfl, lengthOfOp_commandWord (by decide) vd.isLt vs1.isLt vs2.isLt (by decide)⟩

theorem vor (vd vs1 vs2 : VReg) : Statement (.vor vd vs1 vs2) := fun _ =>
  ⟨_, _, rfl, rfl, lengthOfOp_commandWord (by decide) vd.isLt vs1.isLt vs2.isLt (by decide)⟩

theorem vand (vd vs1 vs2 : VReg) : Statement (.vand vd vs1 vs2) := fun _ =>
  ⟨_, _, rfl, rfl, lengthOfOp_commandWord (by decide) vd.isLt vs1.isLt vs2.isLt (by decide)⟩

theorem aesrnd (vd vs1 vs2 : VReg) : Statement (.aesrnd vd vs1 vs2) := fun _ =>
  ⟨_, _, rfl, rfl, lengthOfOp_commandWord (by decide) vd.isLt vs1.isLt vs2.isLt (by decide)⟩

theorem shuf (vd vs1 vs2 : VReg) (ctl : Imm) : Statement (.shuf vd vs1 vs2 ctl) := fun _ =>
  ⟨_, _, rfl, rfl, lengthOfOp_commandWord (by decide) vd.isLt vs1.isLt vs2.isLt ctl.isLt⟩

theorem extr (xd : XReg) (vs1 : VReg) (idx : Imm) : Statement (.extr xd vs1 idx) := fun _ =>
  ⟨_, _, rfl, rfl, lengthOfOp_commandWord (by decide) xd.isLt vs1.isLt (by decide) idx.isLt⟩

theorem bcast (vd : VReg) (xs2 : XReg) : Statement (.bcast vd xs2) := fun _ =>
  ⟨_, _, rfl, rfl, lengthOfOp_commandWord (by decide) vd.isLt (by decide) xs2.isLt (by decide)⟩

theorem ins (vd vs1 : VReg) (xs2 : XReg) (idx : Imm) : Statement (.ins vd vs1 xs2 idx) := fun _ =>
  ⟨_, _, rfl, rfl, lengthOfOp_commandWord (by decide) vd.isLt vs1.isLt xs2.isLt idx.isLt⟩

theorem mbcast (vd vs1 : VReg) (xs2 : XReg) (mask : Imm) : Statement (.mbcast vd vs1 xs2 mask) := fun _ =>
  ⟨_, _, rfl, rfl, lengthOfOp_commandWord (by decide) vd.isLt vs1.isLt xs2.isLt mask.isLt⟩

theorem sll (vd vs1 : VReg) (cnt : Imm) : Statement (.sll vd vs1 cnt) := fun _ =>
  ⟨_, _, rfl, rfl, lengthOfOp_commandWord (by decide) vd.isLt vs1.isLt (by decide) cnt.isLt⟩

theorem srl (vd vs1 : VReg) (cnt : Imm) : Statement (.srl vd vs1 cnt) := fun _ =>
  ⟨_, _, rfl, rfl, lengthOfOp_commandWord (by decide) vd.isLt vs1.isLt (by decide) cnt.isLt⟩

end Sys2Proof.Laws.EncodedLength
end

