-- ==== Sys2Proof/Laws/Sequencer.lean ====
section
/-! SUPPORT. What a step can be (30_encoding.md R94): the execution of the command at `pc`, or the fault of an illegal word. -/

namespace Sys2Proof.Machine

theorem State.faultIrq_congr {s t : State} (h : t.fstat = s.fstat) : t.faultIrq = s.faultIrq := by
  rw [State.faultIrq, State.faultIrq, h]

/-- An illegal word at `pc` raises `Fault(1, 0)` (R90, R221). -/
theorem step_illegal {s : State} {w : Word} (h : AtCommand s w) (hi : IllegalWord w) :
    step s = .next (s.raiseFault .illegalCommand 0) := by
  obtain ⟨hlt, -⟩ := List.getElem?_eq_some_iff.1 h.2.2
  rw [sequencerStep_running h.1 h.2.1 (by omega), h.fetch_eq]
  rcases decode_illegal (s.cmd.drop (s.pc.toNat + 1)) hi with h | h <;> rw [h]

/-- A legal word whose payload is missing is stuck (R96). -/
theorem step_truncated {s : State} {w : Word} (h : AtCommand s w) (hl : ¬ IllegalWord w)
    (ht : s.cmd.length < s.pc.toNat + lengthOfOp (opField w)) : step s = .fault .truncatedCommand := by
  obtain ⟨hlt, -⟩ := List.getElem?_eq_some_iff.1 h.2.2
  rw [sequencerStep_running h.1 h.2.1 (by omega), h.fetch_eq, decode_truncated hl (by simp; omega)]

/-- What is known of a step that answers a next state. -/
theorem step_cases {s t : State} (h : step s = .next t) :
    s.cmd.length < 2 ^ 32 ∧ s.faultIrq = false ∧ s.pc.toNat < s.cmd.length ∧
    ((∃ i rest, decode s.fetch = .ok (i, rest) ∧ exec i s = .next t) ∨
      ∃ w, AtCommand s w ∧ IllegalWord w ∧ t = s.raiseFault .illegalCommand 0) := by
  have h0 := h
  rw [step, sequencerStep] at h
  by_cases h1 : 2 ^ 32 ≤ s.cmd.length
  · rw [if_pos h1] at h
    cases h
  rw [if_neg h1] at h
  by_cases h2 : s.faultIrq = true
  · rw [if_pos h2] at h
    cases h
  rw [if_neg h2] at h
  by_cases h3 : s.pc.toNat = s.cmd.length
  · rw [if_pos h3] at h
    cases h
  have h2' : s.faultIrq = false := by simpa using h2
  rw [sequencerStep_running (by omega) h2' h3] at h0
  by_cases h4 : s.pc.toNat < s.cmd.length
  · have hat : AtCommand s (s.cmd[s.pc.toNat]) := ⟨by omega, h2', by simp [h4]⟩
    refine ⟨by omega, h2', h4, ?_⟩
    by_cases hi : IllegalWord (s.cmd[s.pc.toNat])
    · rw [sequencerStep_running (by omega) h2' h3 |>.symm, step_illegal hat hi] at h0
      exact .inr ⟨_, hat, hi, (next_inj h0).symm⟩
    · rw [hat.fetch_eq] at h0 ⊢
      by_cases hl : lengthOfOp (opField s.cmd[s.pc.toNat]) ≤ (s.cmd.drop (s.pc.toNat + 1)).length + 1
      · obtain ⟨i, rest, hd⟩ := decode_of_length hi hl
        rw [hd] at h0
        exact .inl ⟨i, rest, hd, h0⟩
      · rw [decode_truncated hi (by omega)] at h0
        cases h0
  · rw [State.fetch, List.drop_eq_nil_of_le (by omega)] at h0
    cases h0

/-- The words of the command at `pc` lie in the stream. -/
theorem fetch_length_le {s : State} {i : Instr} {rest : List Word} (h : decode s.fetch = .ok (i, rest))
    (hp : s.pc.toNat < s.cmd.length) : s.pc.toNat + i.words ≤ s.cmd.length := by
  have hl : s.fetch.length = s.cmd.length - s.pc.toNat := by simp [State.fetch]
  cases hf : s.fetch with
  | nil =>
    rw [hf] at hl
    simp at hl
    omega
  | cons w ws =>
    rw [hf] at h hl
    have := (decode_length h).1
    omega

/-- Where the words of a command lie in the stream, the advance does not wrap (R28). -/
theorem advance_toNat {s : State} {n : Nat} (h1 : s.cmd.length < 2 ^ 32) (h : s.pc.toNat + n ≤ s.cmd.length) :
    (s.pc + BitVec.ofNat 32 n).toNat = s.pc.toNat + n := by
  rw [BitVec.toNat_add, BitVec.toNat_ofNat]
  omega

end Sys2Proof.Machine
end

