-- ==== Sys2Proof/Tests/Slice0.lean ====
section
/-! SUPPORT. Tests with expected values from 95_test_vectors.md, and for every statement with hypotheses a theorem that shows
they can be met, at the boundary values of each clause. -/

open Sys2Proof Sys2Proof.Machine

namespace Sys2Proof.Tests

/-! ### Helpers -/

/-- The standard operand `A` of 95_test_vectors.md Part 2. -/
def vecA : WideVector := vecOfElems fun i => BitVec.ofNat 32 (0x11111111 * i)

/-- The standard operand `B`. -/
def vecB : WideVector := vecOfElems fun i => BitVec.ofNat 32 (0x80000001 + 0x100 * i)

/-- The vector with `byte[j] = j` (T30). -/
def vecCount : WideVector := vecOfElems fun i => BitVec.ofNat 32 (0x03020100 + 0x04040404 * i)

/-- The states of T20 to T23, one a lane. -/
def aesStates : WideVector :=
  ⟨0x7b5b54657374566563746f725d53475d, 0x0848f8e92a8dc69a2be2f4a0bee33d19, 0, 0x0f0e0d0c0b0a09080706050403020100⟩

/-- The keys of T20 to T23, one a lane. -/
def aesKeys : WideVector :=
  ⟨0x48692853686179295b477565726f6e5d, 0x05766c2a3939a323b12c548817fefaa0, 0, 0xffffffffffffffffffffffffffffffff⟩

/-- After reset, with `V0 = A`, `V1 = B`, `V4`, `V5` the AES operands, `V6` counting bytes, `X1 = A.lane[2]`, and a stream. -/
def base (cmd : List Word) : State :=
  { ((((State.reset.writeV 0 vecA).writeV 1 vecB).writeV 4 aesStates).writeV 5 aesKeys).writeV 6 vecCount |>.writeX 1 vecA.c
    with cmd := cmd }

/-- The same with `MEM_VALID(a) = (a < 0x8000)` (T44, P5, P6). -/
def small (cmd : List Word) : State := { base cmd with holes := [⟨0x8000, 2 ^ 64 - 1⟩] }

/-- Memory with the bytes `1, 2, 3, ...` from `a` on. -/
def countedMem (a n : Nat) : Memory := (List.range n).map fun j => (a + j, BitVec.ofNat 8 (j + 1))

/-- A property of the next state, false of a stop. -/
def nextHas (o : Host.Outcome State Fault Refusal) (p : State → Bool) : Bool :=
  match o with
  | .next t => p t
  | .fault _ => false
  | .refused _ => false

/-- The sixteen elements of `V[r]` are `e`. -/
def elemsAre (r : VReg) (e : List Word) (t : State) : Bool :=
  (List.range 16).map (vecElem (t.readV r)) == e

/-- What the status port says. -/
def statusIs (fstat fpc : Nat) (faddr : Nat) (pc : Nat) (t : State) : Bool :=
  t.fstat.toNat == fstat && t.fpc.toNat == fpc && t.faddr.toNat == faddr && t.pc.toNat == pc

/-! ### Well-formedness -/

/-- The one check of `WellFormed`: fifteen or seventeen elements are refused, sixteen accepted. -/
theorem test_wellFormed_setr :
    (Instr.setr 0 (List.replicate 15 0)).wellFormed = false ∧ (Instr.setr 0 (List.replicate 17 0)).wellFormed = false ∧
      (Instr.setr 0 (List.replicate 16 0)).wellFormed = true := by decide

/-- The execution of an ill-formed term is refused by name. -/
theorem test_setr_ill_formed : exec (.setr 0 [1, 2]) (base []) = .refused .illFormedSetr := rfl

/-! ### Decoding: the words of T90, a row for every command -/

theorem test_decode_setr : decode (0x00000021 :: List.replicate 16 7) = .ok (.setr 2 (List.replicate 16 7), []) := by decide
theorem test_decode_setr_order : decode (0x000000f1 :: (List.range 17).map (BitVec.ofNat 32)) =
    .ok (.setr 15 [0, 1, 2, 3, 4, 5, 6, 7, 8, 9, 10, 11, 12, 13, 14, 15], [16]) := by decide
theorem test_decode_loadu : decode [0x00000012, 0x00001003, 0x00000000] = .ok (.loadu 1 0x1003, []) := by decide
theorem test_decode_loadu_high : decode [0x00000032, 0xffffffc0, 0xffffffff] = .ok (.loadu 3 0xffffffffffffffc0, []) := by
  decide
theorem test_decode_storeu : decode [0x00000503, 0x00002001, 0x00000000] = .ok (.storeu 5 0x2001, []) := by decide
theorem test_decode_storeu_high : decode [0x00000003, 0x00000ff8, 0xffffffff] = .ok (.storeu 0 0xffffffff00000ff8, []) := by
  decide
theorem test_decode_vxor : decode [0x00002134] = .ok (.vxor 3 1 2, []) := by decide
theorem test_decode_vor : decode [0x00004355] = .ok (.vor 5 3 4, []) ∧ decode [0x00003395] = .ok (pseudoVmov 9 3, []) := by
  decide
theorem test_decode_vand : decode [0x00002146] = .ok (.vand 4 1 2, []) := by decide
theorem test_decode_aesrnd : decode [0x00001007] = .ok (.aesrnd 0 0 1, []) := by decide
theorem test_decode_shuf : decode [0xff1b1048] = .ok (.shuf 4 0 1 0xff1b, []) ∧
    decode [0x00e4def8] = .ok (.shuf 15 14 13 0x00e4, []) ∧ decode [0xfffffff8] = .ok (.shuf 15 15 15 0xffff, []) := by decide
theorem test_decode_extr : decode [0x00060019] = .ok (.extr 1 0 6, []) := by decide
theorem test_decode_bcast : decode [0x0000102a] = .ok (.bcast 2 1, []) := by decide
theorem test_decode_ins : decode [0xfffd113b] = .ok (.ins 3 1 1 0xfffd, []) ∧
    decode [0xfffffffb] = .ok (.ins 15 15 15 0xffff, []) := by decide
theorem test_decode_mbcast : decode [0xa5c3115c] = .ok (.mbcast 5 1 1 0xa5c3, []) := by decide
theorem test_decode_sll : decode [0x0004006d] = .ok (.sll 6 0 4, []) ∧ decode [0xffff0ffd] = .ok (.sll 15 15 65535, []) := by
  decide
theorem test_decode_srl : decode [0x001f007e] = .ok (.srl 7 0 31, []) := by decide

/-- The illegal words of T90. -/
theorem test_decode_illegal :
    ([0x00000000, 0xffffffff, 0x0000210f, 0x12345670] : List Word).all
      (fun w => decide (decode [w] = .error .reservedOpcode)) = true ∧
    ([0x00000101, 0x00010001, 0x00000112, 0x00000013, 0x00001003, 0x00010014, 0x00012135, 0x80000006, 0x00010007, 0x00001019,
      0x0000011a, 0x0001000a, 0x0004100d, 0x0004f00e, 0xfffffffd, 0xfffffff9] : List Word).all
      (fun w => decide (decode [w] = .error .reservedField)) = true := by decide

/-- The same words by match and mask (R86). -/
theorem test_rows_illegal :
    ([0x00000000, 0xffffffff, 0x00000101, 0x00000013, 0x0001000a, 0x0004f00e] : List Word).all
      (fun w => opcodeRows.all fun r => !r.hits w) = true := by decide

/-! ### The commands -/

/-- T30 and R27. -/
theorem test_setr : nextHas (exec (.setr 2 ((List.range 16).map fun i => BitVec.ofNat 32 (0x03020100 + 0x04040404 * i))) (base []))
    (fun t => (List.range 64).all (fun j => vecByte (t.readV 2) j == BitVec.ofNat 8 j) && t.pc.toNat == 17) = true := by decide

/-- T31: signed elements. -/
theorem test_setr_signed : ([-1, -2, 2147483647, -2147483648] : List Int).map signedElem =
    [0xffffffff, 0xfffffffe, 0x7fffffff, 0x80000000] := by decide

/-- T40: an unaligned load (the memory holds `1, 2, ...` here). -/
theorem test_loadu : nextHas (exec (.loadu 1 0x1003) { base [] with mem := countedMem 0x1003 70 })
    (fun t => vecByte (t.readV 1) 0 == 1 && vecElem (t.readV 1) 4 == 0x14131211 && vecByte (t.readV 1) 63 == 64 &&
      t.pc.toNat == 3) = true := by decide

/-- T44: the second lane access fails; the destination keeps its value. -/
theorem test_loadu_error : nextHas (exec (.loadu 0 0x7fe5) (small []))
    (fun t => statusIs 5 0 0x7ff5 0 t && decide (t.readV 0 = vecA)) = true := by decide

/-- T42: exactly the 64 bytes of the window, the byte before and the bytes after kept. -/
theorem test_storeu : nextHas (exec (.storeu 6 0x2001) { base [] with mem := [(0x2000, 0xee), (0x2001, 0xee), (0x2041, 0xee)] })
    (fun t => t.readByte 0x2000 == 0xee && t.readByte 0x2001 == 0 && t.readByte 0x2040 == 63 && t.readByte 0x2041 == 0xee &&
      t.pc.toNat == 3 && t.mem.wf) = true := by decide

/-- P5: sixteen bytes written, then the fault. -/
theorem test_storeu_partial : nextHas (exec (.storeu 6 0x7fe5) { small [] with mem := [(0x7fe4, 0xee), (0x7ff5, 0xee)] })
    (fun t => statusIs 7 0 0x7ff5 0 t && t.readByte 0x7fe4 == 0xee && t.readByte 0x7ff4 == 15 && t.readByte 0x7ff5 == 0xee) =
      true := by decide

/-- T51. -/
theorem test_vxor : nextHas (exec (.vxor 2 0 1) (base []))
    (elemsAre 2 [0x80000001, 0x91111010, 0xa2222023, 0xb3333032, 0xc4444045, 0xd5555054, 0xe6666067, 0xf7777076,
      0x08888089, 0x19999098, 0x2aaaa0ab, 0x3bbbb0ba, 0x4cccc0cd, 0x5dddd0dc, 0x6eeee0ef, 0x7ffff0fe]) = true := by decide

/-- T50, with the destination a source. -/
theorem test_vxor_self : nextHas (exec (.vxor 0 0 0) (base [])) (fun t => decide (t.readV 0 = ⟨0, 0, 0, 0⟩)) = true := by decide

/-- T52. -/
theorem test_vor : nextHas (exec (.vor 2 0 1) (base []))
    (elemsAre 2 [0x80000001, 0x91111111, 0xa2222223, 0xb3333333, 0xc4444445, 0xd5555555, 0xe6666667, 0xf7777777,
      0x88888889, 0x99999999, 0xaaaaaaab, 0xbbbbbbbb, 0xcccccccd, 0xdddddddd, 0xeeeeeeef, 0xffffffff]) = true := by decide

/-- T53. -/
theorem test_vand : nextHas (exec (.vand 2 0 1) (base []))
    (elemsAre 2 [0x00000000, 0x00000101, 0x00000200, 0x00000301, 0x00000400, 0x00000501, 0x00000600, 0x00000701,
      0x80000800, 0x80000901, 0x80000a00, 0x80000b01, 0x80000c00, 0x80000d01, 0x80000e00, 0x80000f01]) = true := by decide

/-- T20, T21: published vectors, the first two lanes of T24. -/
theorem test_aesrnd_published : nextHas (exec (.aesrnd 2 4 5) (base []))
    (fun t => decide (vecLane (t.readV 2) 0 = 0xa8311c2f9fdba3c58b104b58ded7e595) &&
      decide (vecLane (t.readV 2) 1 = 0x49506a0243ea5b6b2b359f68f27f9ca4)) = true := by
  set_option maxRecDepth 100000 in decide

/-- T22, T23, the last two lanes of T24, in place (P2). -/
theorem test_aesrnd_in_place : nextHas (exec (.aesrnd 4 4 5) (base []))
    (fun t => decide (vecLane (t.readV 4) 2 = 0x63636363636363636363636363636363) &&
      decide (vecLane (t.readV 4) 3 = 0xa3de63d89ea2264faecc92d3baa39595)) = true := by
  set_option maxRecDepth 100000 in decide

/-- T26. -/
theorem test_sbox_xtime : ([0x00, 0x01, 0x53, 0x80, 0xff] : List Byte).map sbox = [0x63, 0x7c, 0xed, 0xcd, 0x16] ∧
    ([0x57, 0xae, 0x80] : List Byte).map xtime = [0xae, 0x47, 0x1b] := by decide

/-- T60, `ctl = 0x1b`, with ignored bits set. -/
theorem test_shuf : nextHas (exec (.shuf 4 0 1 0xff1b) (base []))
    (fun t => decide (t.readV 4 = ⟨vecA.d, vecA.c, vecB.b, vecB.a⟩)) = true := by decide

/-- T60, both sources and the destination the same register. -/
theorem test_shuf_in_place : nextHas (exec (.shuf 0 0 0 0x1b) (base []))
    (fun t => decide (t.readV 0 = ⟨vecA.d, vecA.c, vecA.b, vecA.a⟩)) = true := by decide

/-- T61, `idx = 6` and `idx = 0xffff`. -/
theorem test_extr :
    nextHas (exec (.extr 3 0 6) (base [])) (fun t => decide (t.readX 3 = 0xbbbbbbbbaaaaaaaa9999999988888888)) = true ∧
    nextHas (exec (.extr 3 0 0xffff) (base [])) (fun t => decide (t.readX 3 = 0xffffffffeeeeeeeeddddddddcccccccc)) = true := by
  decide

/-- T63. -/
theorem test_bcast : nextHas (exec (.bcast 2 1) (base []))
    (fun t => decide (t.readV 2 = ⟨vecA.c, vecA.c, vecA.c, vecA.c⟩)) = true := by decide

/-- T62. -/
theorem test_ins : nextHas (exec (.ins 3 1 1 0xfffd) (base []))
    (fun t => decide (t.readV 3 = ⟨vecB.a, vecA.c, vecB.c, vecB.d⟩)) = true := by decide

/-- T71. -/
theorem test_mbcast : nextHas (exec (.mbcast 5 1 1 0xa5c3) (base []))
    (elemsAre 5 [0x88888888, 0x99999999, 0x80000201, 0x80000301, 0x80000401, 0x80000501, 0xaaaaaaaa, 0xbbbbbbbb,
      0x88888888, 0x80000901, 0xaaaaaaaa, 0x80000b01, 0x80000c01, 0x99999999, 0x80000e01, 0xbbbbbbbb]) = true := by decide

/-- T72, `mask = 0x8000`, in place. -/
theorem test_mbcast_top_bit : nextHas (exec (.mbcast 1 1 1 0x8000) (base []))
    (fun t => vecElem (t.readV 1) 15 == 0xbbbbbbbb && vecElem (t.readV 1) 14 == 0x80000e01 &&
      vecElem (t.readV 1) 0 == 0x80000001) = true := by decide

/-- T81. -/
theorem test_sll : nextHas (exec (.sll 6 0 4) (base []))
    (elemsAre 6 [0x00000000, 0x11111110, 0x22222220, 0x33333330, 0x44444440, 0x55555550, 0x66666660, 0x77777770,
      0x88888880, 0x99999990, 0xaaaaaaa0, 0xbbbbbbb0, 0xccccccc0, 0xddddddd0, 0xeeeeeee0, 0xfffffff0]) = true := by decide

/-- T80: counts of 32 and more. -/
theorem test_sll_large : ([32, 33, 256, 65535] : List Imm).all (fun c => nextHas (exec (.sll 0 0 c) (base []))
    (fun t => decide (t.readV 0 = ⟨0, 0, 0, 0⟩))) = true := by decide

/-- T82: logical, in place. -/
theorem test_srl : nextHas (exec (.srl 1 1 1) (base []))
    (elemsAre 1 [0x40000000, 0x40000080, 0x40000100, 0x40000180, 0x40000200, 0x40000280, 0x40000300, 0x40000380,
      0x40000400, 0x40000480, 0x40000500, 0x40000580, 0x40000600, 0x40000680, 0x40000700, 0x40000780]) = true := by decide

/-- T80: counts of 32 and more. -/
theorem test_srl_large : ([32, 33, 256, 65535] : List Imm).all (fun c => nextHas (exec (.srl 0 0 c) (base []))
    (fun t => decide (t.readV 0 = ⟨0, 0, 0, 0⟩))) = true := by decide

/-! ### Steps -/

/-- P4: an illegal word halts the block, and the next step is none. -/
theorem test_illegal_word : nextHas (step (base [0x0000210f, 0x00000025])) (fun t => statusIs 3 0 0 0 t && t.faultIrq && !t.idle &&
    (match step t with | .fault .halted => true | _ => false)) = true := by decide

/-- P6 as a step: `LOADU V0, [0x7fe5]`. -/
theorem test_step_loadu_error : nextHas (step (small [0x00000002, 0x00007fe5, 0])) (statusIs 5 0 0x7ff5 0) = true := by decide

/-- P7: stuck, then its illegal contrast, then the empty stream. -/
theorem test_truncated :
    step (base (0x00000001 :: List.replicate 10 0)) = .fault .truncatedCommand ∧
    nextHas (step (base (0x00000101 :: List.replicate 10 0))) (statusIs 3 0 0 0) = true ∧
    step (base []) = .fault .endOfRun := ⟨rfl, by decide, rfl⟩

/-- From reset nothing runs until words are placed (log entry 6). -/
theorem test_reset_step : step State.reset = .fault .endOfRun := rfl

/-- P8: an exclusive-or of an unwritten register with itself is zero, whatever the register holds. -/
theorem test_unwritten : ∃ t, exec (.vxor 1 0 0) State.reset = .next t ∧ ∀ k, vecLane (t.readV 1) k = 0 :=
  ⟨_, rfl, fun k => by rw [vecLane_vvv]; exact BitVec.xor_self⟩

/-- A read of an unwritten register gives the free value. -/
theorem test_unwritten_read : State.reset.readV 7 = Config.vReset 0 7 := rfl

/-- The host places one instruction and the first step after reset runs it. -/
theorem test_withFetchWord : nextHas (step (State.reset.withFetchWord 96 (0x00000032 + 0x1003 * 2 ^ 32)))
    (fun t => decide (t.readV 3 = ⟨0, 0, 0, 0⟩) && t.pc.toNat == 3) = true ∧
    decodeTableWord 32 0x0000102a = some (.bcast 2 1) := by decide

/-! ### The hypotheses of the statements can be met -/

/-- `StateInv`: of a running state, of a halted one, and of a state with memory. -/
theorem test_inv_met : StateInv (base [0x00002134]) ∧ StateInv ((base [0]).raiseFault .illegalCommand 0) ∧
    StateInv ((small [0x00000002, 0x00007fe5, 0]).raiseFault .loadAccess 0x7ff5) ∧
    StateInv { base [] with mem := [(0, 1), (2 ^ 64 - 1, 0xff)] } := by
  unfold StateInv NoFaultRecorded FaultRecorded
  decide

/-- A step with a next state that completes, from a state that satisfies `StateInv` (StepKeepsInv, StepAdvancesByLength). -/
theorem test_step_completes_met : nextHas (step (base [0x00002134])) (fun t => !t.faultIrq && t.pc.toNat == 1) = true ∧
    nextHas (step (base [0x00000603, 0, 0])) (fun t => !t.faultIrq && t.pc.toNat == 3) = true := by decide

/-- A step that faults, for each of the five ways of FaultCausesAndAddress and FaultEntryIsPrecise. -/
theorem test_step_faults_met :
    nextHas (step (base [0])) (statusIs 3 0 0 0) = true ∧
    nextHas (step (base [0x00000002, 0xffffffc1, 0xffffffff])) (statusIs 5 0 0xffffffffffffffc1 0) = true ∧
    nextHas (step (small [0x00000002, 0x00007fc1, 0])) (statusIs 5 0 0x7ff1 0) = true ∧
    nextHas (step (base [0x00000003, 0xffffffc1, 0xffffffff])) (statusIs 7 0 0xffffffffffffffc1 0) = true ∧
    nextHas (step (small [0x00000603, 0x00007fc1, 0])) (statusIs 7 0 0x7ff1 0) = true := by decide

/-- A decoded command in the stream of a running state (StepRunsDecodedCommand). -/
theorem test_decoded_at_pc_met : (base [0x00002134, 5]).cmd.length < 2 ^ 32 ∧ (base [0x00002134, 5]).faultIrq = false ∧
    decode ((base [0x00002134, 5]).cmd.drop (base [0x00002134, 5]).pc.toNat) = .ok (.vxor 3 1 2, [5]) := by decide

/-- An illegal word, at the end of the stream (LengthFromOpAndLegalityFirst, ReservedOpcodesFault). -/
theorem test_illegal_at_end_met : AtCommand (base [0x0000210f]) 0x0000210f ∧ IllegalWord 0x0000210f ∧ IllegalWord 0 ∧
    IllegalWord 0xffffffff ∧ (base [0x0000210f]).pc.toNat + 1 = (base [0x0000210f]).cmd.length := by
  unfold AtCommand IllegalWord
  decide

/-- A word for each clause of ReservedFieldsFault: each format with one reserved field not zero, and the three opcodes
without reserved fields. -/
theorem test_reserved_fields_met :
    ((opField 0x00000101).toNat = 1 ∧ rs1Field 0x00000101 ≠ 0) ∧ ((opField 0x00001002).toNat = 2 ∧ rs2Field 0x00001002 ≠ 0) ∧
    ((opField 0x80000002).toNat = 2 ∧ immField 0x80000002 ≠ 0) ∧ ((opField 0x00000013).toNat = 3 ∧ rdField 0x00000013 ≠ 0) ∧
    ((opField 0x00010004).toNat = 4 ∧ immField 0x00010004 ≠ 0) ∧ ((opField 0x80000007).toNat = 7 ∧ immField 0x80000007 ≠ 0) ∧
    ((opField 0x00001019).toNat = 9 ∧ rs2Field 0x00001019 ≠ 0) ∧ ((opField 0x0004100d).toNat = 13 ∧ rs2Field 0x0004100d ≠ 0) ∧
    ((opField 0x0004f00e).toNat = 14 ∧ rs2Field 0x0004f00e ≠ 0) ∧ ((opField 0x0000011a).toNat = 10 ∧ rs1Field 0x0000011a ≠ 0) ∧
    ((opField 0xfffffff8).toNat = 8 ∧ (opField 0xfffffffb).toNat = 11 ∧ (opField 0xfffffffc).toNat = 12) := by decide

/-- A word with each opcode, its reserved field not zero (the second clause of the rules of single commands), for the rest. -/
theorem test_reserved_fields_more_met :
    ((opField 0x00000101).toNat = 1 ∧ IllegalWord 0x00000101) ∧ ((opField 0x00012135).toNat = 5 ∧ immField 0x00012135 ≠ 0) ∧
    ((opField 0x80000006).toNat = 6 ∧ immField 0x80000006 ≠ 0) ∧ ((opField 0x0001000a).toNat = 10 ∧ immField 0x0001000a ≠ 0) ∧
    ((opField 0x00000009).toNat = 9 ∧ rs2Field 0x00000009 = 0) := by
  unfold IllegalWord
  decide

/-- A row that hits a word, with the words the row asks for (OpcodeMapMatchesDecoder). -/
theorem test_row_hits_met : (⟨"LOADU", 0x00000002, 0xFFFFFF0F, 3⟩ : OpcodeRow) ∈ opcodeRows ∧
    OpcodeRow.hits ⟨"LOADU", 0x00000002, 0xFFFFFF0F, 3⟩ 0x000000f2 = true ∧ 3 ≤ [0x000000f2#32, 1, 2].length ∧
    decode [0x000000f2, 1, 2] = .ok (.loadu 15 0x200000001, []) := by decide

/-- The payload hypotheses of PayloadAssembly at their bounds. -/
theorem test_payload_met : (List.replicate 16 (0 : Word)).length = 16 ∧ signedElem (-2 ^ 31) = 0x80000000 ∧
    signedElem (-1) = 0xffffffff ∧ signedElem 0 = 0 ∧ signedElem (2 ^ 31 - 1) = 0x7fffffff := by decide

/-- Immediates that differ only in ignored bits (IgnoredImmediateBits). -/
theorem test_ignored_bits_met : (0x001b : Imm) ≠ 0xff1b ∧ (0x001b : Imm).toNat % 256 = (0xff1b : Imm).toNat % 256 ∧
    (0x0001 : Imm) ≠ 0xfffd ∧ (0x0001 : Imm).toNat % 4 = (0xfffd : Imm).toNat % 4 := by decide

/-- A truncated command (TruncatedCommandIsStuck, the third clause of SetrRule) and words that complete it. -/
theorem test_truncated_met : AtCommand (base (0x00000001 :: List.replicate 15 0)) 0x00000001 ∧ ¬ IllegalWord 0x00000001 ∧
    (base (0x00000001 :: List.replicate 15 0)).cmd.length <
      (base (0x00000001 :: List.replicate 15 0)).pc.toNat + lengthOfOp (opField 0x00000001) ∧
    (base (0x00000001 :: List.replicate 15 0)).pc.toNat + lengthOfOp (opField 0x00000001) ≤
      (base (0x00000001 :: List.replicate 15 0)).cmd.length + [0#32].length := by
  unfold AtCommand IllegalWord
  decide

/-- An idle state to which the host delivers a word (EndOfRun). -/
theorem test_idle_met : (base []).idle = true ∧ (base []).cmd.length + [0x00002134#32].length < 2 ^ 32 ∧
    nextHas (step ((base []).deliver [0x00002134])) (fun t => t.idle) = true := by decide

/-- A halted state (HaltedUntilReset). -/
theorem test_halted_met : ((base [0]).raiseFault .illegalCommand 0).faultIrq = true ∧
    ((base [0]).raiseFault .illegalCommand 0).cmd.length < 2 ^ 32 := by decide

theorem exists_long_stream (n : Nat) : ∃ s : State, n ≤ s.cmd.length :=
  ⟨base (List.replicate n 0), by simp [base]⟩

/-- A stream of 2^32 words (LongStreamRefused). -/
theorem test_long_stream_met : ∃ s : State, 2 ^ 32 ≤ s.cmd.length := exists_long_stream _

/-- The window check passes at `2^64 - 64` and fails at `2^64 - 63`, for both commands (T43, WindowCheckFaults). -/
theorem test_window_check_boundary :
    nextHas (exec (.loadu 3 0xffffffffffffffc0) (base [])) (fun t => t.pc.toNat == 3) = true ∧
    2 ^ 64 - 64 < (0xffffffffffffffc1 : Addr).toNat ∧
    nextHas (exec (.loadu 3 0xffffffffffffffc1) (base [])) (statusIs 5 0 0xffffffffffffffc1 0) = true ∧
    nextHas (exec (.storeu 6 0xffffffffffffffc0) (base [])) (fun t => t.pc.toNat == 3 && t.readByte (2 ^ 64 - 1) == 63) = true ∧
    nextHas (exec (.storeu 6 0xffffffffffffffc1) (base [])) (statusIs 7 0 0xffffffffffffffc1 0) = true := by decide

/-- A valid window at the last legal address, and just below the end of a small memory (LoaduRule, StoreuRule and the laws
over two commands). -/
theorem test_windowValid_met : WindowValid (base []) (0xffffffffffffffc0 : Addr).toNat ∧
    WindowValid (small []) (0x7fc0 : Addr).toNat ∧ WindowValid (small []) (0 : Addr).toNat ∧ (base []).mem.wf = true := by
  unfold WindowValid
  decide

/-- Each lane can be the first one answered "error" (T44; PartialStore, LoaduRule, StoreuRule). -/
theorem test_firstError_met : FirstError (small []) (0x8000 : Addr).toNat 0 ∧ FirstError (small []) (0x7fe5 : Addr).toNat 1 ∧
    FirstError (small []) (0x7fd1 : Addr).toNat 2 ∧ FirstError (small []) (0x7fc1 : Addr).toNat 3 ∧
    (0x8000 : Addr).toNat ≤ 2 ^ 64 - 64 ∧ (small []).mem.wf = true := by
  unfold FirstError
  decide

/-- A hole of the memory in which the window check still passes at its last address (FirstError meets the window check). -/
theorem test_firstError_at_top_met : FirstError { base [] with holes := [⟨2 ^ 64 - 1, 2 ^ 64 - 1⟩] } (0xffffffffffffffc0 : Addr).toNat 3 := by
  unfold FirstError
  decide

/-- The immediates of the lane commands: each selector value is met (ShufRule, ExtrRule, InsRule, LaneMultiplexerLaws). -/
theorem test_selectors_met : (0xe4 : Imm).toNat % 4 = 0 ∧ (0xe4 : Imm).toNat / 4 % 4 = 1 ∧ (0xe4 : Imm).toNat / 16 % 4 = 2 ∧
    (0xe4 : Imm).toNat / 64 % 4 = 3 ∧ (7 : Imm).toNat % 4 = (3 : Imm).toNat % 4 ∧ (7 : Imm).toNat % 4 ≠ (4 : Imm).toNat % 4 := by
  decide

/-- Distinct registers for the two-command forms (BitwiseCommandsCommuteAndAssociate). -/
theorem test_bitwise_registers_met : (3 : VReg) ≠ 0 ∧ (3 : VReg) ≠ 2 ∧ Instr.vxor ∈ [Instr.vxor, Instr.vor, Instr.vand] :=
  ⟨by decide, by decide, .head _⟩

/-- Bytes that meet the equations of AesRoundByBytes, here for column 0 of T23. -/
theorem test_aes_bytes_met : sbox (laneByte aesStates.d 0) = 0x63 ∧ sbox (laneByte aesStates.d 5) = 0x6b ∧
    sbox (laneByte aesStates.d 10) = 0x67 ∧ sbox (laneByte aesStates.d 15) = 0x76 ∧
    xtime 0x63 ^^^ (xtime 0x6b ^^^ 0x6b) ^^^ 0x67 ^^^ 0x76 ^^^ 0xff = 0x95 := by decide

/-- A well-formed command with a payload, decoded back (DecodeEncodeRoundTrip, EncodeDecodeRoundTrip). -/
theorem test_round_trip_met : (Instr.setr 3 (List.replicate 16 9)).WellFormed ∧
    decode (encode (.loadu 3 0x123456789abcdef0) ++ [1]) = .ok (.loadu 3 0x123456789abcdef0, [1]) := by decide

/-- A command that changes a register, one that changes memory (OnlyDestinationRegisterChanges, OnlyStoreWindowChanges). -/
theorem test_changes_met : nextHas (exec (.vxor 2 0 1) (base [])) (fun t => decide (t.readV 2 ≠ vecA)) = true ∧
    nextHas (exec (.storeu 6 0) (base [])) (fun t => decide (t.readByte 63 ≠ (base []).readByte 63)) = true := by decide

/-- Two states with the same operands that differ in the fault registers, the stream and the count of resets
(ResultsDependOnOperandsOnly). -/
theorem test_same_operands_met : (∃ s s' : State, SameOperands s s' ∧ s'.fstat ≠ s.fstat ∧ s'.cmd ≠ s.cmd) ∧
    (Instr.vxor 2 0 1).WellFormed :=
  ⟨⟨State.reset, { State.reset with fstat := 3, cmd := [5], resets := 4 }, ⟨rfl, rfl, rfl, rfl, rfl⟩, by decide, by decide⟩,
    rfl⟩

/-- A running `STOREU` at `pc` with a valid window (ResetDuringStoreKeepsWholeLanes); after 0 lane accesses nothing is
written, after 2 and after 4 exactly so many lanes. -/
theorem test_reset_during_store_met :
    (base [0x00000603, 0x2001, 0]).faultIrq = false ∧ (base [0x00000603, 0x2001, 0]).mem.wf = true ∧
    decode ((base [0x00000603, 0x2001, 0]).cmd.drop (base [0x00000603, 0x2001, 0]).pc.toNat) = .ok (.storeu 6 0x2001, []) ∧
    WindowValid (base [0x00000603, 0x2001, 0]) (0x2001 : Addr).toNat ∧
    ((base [0x00000603, 0x2001, 0]).resetDuringStore 0).mem = [] ∧
    ((base [0x00000603, 0x2001, 0]).resetDuringStore 2).readByte 0x2020 = 31 ∧
    ((base [0x00000603, 0x2001, 0]).resetDuringStore 2).readByte 0x2021 = Memory.unlisted ∧
    ((base [0x00000603, 0x2001, 0]).resetDuringStore 4).readByte 0x2040 = 63 ∧
    ((base [0x00000603, 0x2001, 0]).resetDuringStore 4).readByte 0x2041 = Memory.unlisted := by
  unfold WindowValid
  decide

/-- The other clauses of ResetDuringStoreKeepsWholeLanes: lane 1 is the first answered "error", and the reset comes before
it and after it; a window past the top; another command; no command; a halted block. -/
theorem test_reset_during_others_met :
    FirstError (small [0x00000603, 0x7fe5, 0]) (0x7fe5 : Addr).toNat 1 ∧
    decode ((small [0x00000603, 0x7fe5, 0]).cmd.drop (small [0x00000603, 0x7fe5, 0]).pc.toNat) = .ok (.storeu 6 0x7fe5, []) ∧
    ((small [0x00000603, 0x7fe5, 0]).resetDuringStore 0).mem = [] ∧
    ((small [0x00000603, 0x7fe5, 0]).resetDuringStore 4).readByte 0x7ff4 = 15 ∧
    ((small [0x00000603, 0x7fe5, 0]).resetDuringStore 4).readByte 0x7ff5 = Memory.unlisted ∧
    decode (base [0x00000603, 0xffffffc1, 0xffffffff]).fetch = .ok (.storeu 6 0xffffffffffffffc1, []) ∧
    ((base [0x00000603, 0xffffffc1, 0xffffffff]).resetDuringStore 4).mem = [] ∧
    decode (base [0x00002134]).fetch = .ok (.vxor 3 1 2, []) ∧ decode (base [0]).fetch = .error .reservedOpcode ∧
    ((base [0]).raiseFault .illegalCommand 0).faultIrq = true := by
  unfold FirstError
  decide

/-- The state after the fault of each kind, from a step with a next state: the addresses of FaultEntryIsPrecise, with memory
written by none of them but the last. -/
theorem test_fault_entry_met :
    nextHas (step (base [0x00000603, 0xffffffd0, 0xffffffff])) (fun t => statusIs 7 0 0xffffffffffffffd0 0 t && decide (t.mem = [])) =
      true ∧
    nextHas (step (small [0x00000603, 0x7fe5, 0])) (fun t => statusIs 7 0 0x7ff5 0 t && t.readByte 0x7fe6 == 1 &&
      t.readByte 0x7ff5 == Memory.unlisted) = true := by decide

/-- Commands of each case of WellFormedCommandsAlwaysAnswer: a total one, and a `LOADU` and a `STOREU` that fault. -/
theorem test_always_answer_met : (Instr.sll 1 2 3).WellFormed ∧ (∀ r addr, Instr.sll 1 2 3 ≠ .loadu r addr ∧
    Instr.sll 1 2 3 ≠ .storeu r addr) ∧ nextHas (exec (.loadu 1 0x8000) (small [])) (statusIs 5 0 0x8000 0) = true ∧
    nextHas (exec (.storeu 1 0x8000) (small [])) (statusIs 7 0 0x8000 0) = true :=
  ⟨rfl, fun _ _ => ⟨nofun, nofun⟩, by decide, by decide⟩

/-- The hypotheses of OutsideMovesKeepInv: a state with the invariant and a delivery below the bound. -/
theorem test_outside_moves_met : StateInv (base []) ∧ (base []).cmd.length + [0x00002134#32].length < 2 ^ 32 ∧
    ((base []).otherAgentWrite (2 ^ 64 - 1) 7).readByte (2 ^ 64 - 1) = 7 := by
  unfold StateInv NoFaultRecorded FaultRecorded
  decide

/-- A reachable state that has executed a command (ReachableStatesSatisfyInv): from reset, a delivery and a step. -/
theorem test_reachable_met : ∃ t, Reachable t ∧ t.pc = 1 ∧ t.cmd = [0x00000014] :=
  ⟨_, .step _ _ (.deliver _ [0x00000014] (.start [] [] rfl) (by decide)) rfl, rfl, rfl⟩

/-- A list that is no `SETR` payload (IllFormedSetrRefused). -/
theorem test_ill_formed_met : ([1, 2] : List Word).length ≠ 16 ∧ (List.replicate 17 (0 : Word)).length ≠ 16 := by decide

end Sys2Proof.Tests
end

section
/-! PROOFS. The family of 30_encoding.md: the opcode map, illegal words, payload words, ignored bits, lengths, and a command
whose payload is missing (R85 to R90, R96). -/

namespace Sys2Proof.Machine

/-! ### Legal words, format by format (R82, R87, R88)

Each format is one equivalence for `reservedFieldsZero`; a reserved opcode has no format. -/

section
variable {w : Word}

theorem reservedFieldsZero_of_opReserved (h : opReserved w = true) : reservedFieldsZero w = false := by
  rw [opReserved, Bool.or_eq_true, beq_iff_eq, beq_iff_eq] at h
  rcases h with h | h <;> simp [reservedFieldsZero, h]

theorem illegalWord_iff_reservedFieldsZero : IllegalWord w ↔ ¬ reservedFieldsZero w = true := by
  rw [illegal_iff, Bool.not_eq_true]
  exact ⟨fun h => h.elim reservedFieldsZero_of_opReserved id, .inr⟩

/-- Formats `P16` and `LD`. -/
theorem reservedFieldsZero_setr_loadu (h : (opField w).toNat = 1 ∨ (opField w).toNat = 2) :
    reservedFieldsZero w = true ↔ rs1Field w = 0 ∧ rs2Field w = 0 ∧ immField w = 0 := by
  rcases h with h | h <;> simp [reservedFieldsZero, h, and_assoc]

/-- Format `ST`. -/
theorem reservedFieldsZero_storeu (h : (opField w).toNat = 3) :
    reservedFieldsZero w = true ↔ rdField w = 0 ∧ rs2Field w = 0 ∧ immField w = 0 := by
  simp [reservedFieldsZero, h, and_assoc]

/-- Format `VVV`. -/
theorem reservedFieldsZero_vvv (h : 4 ≤ (opField w).toNat ∧ (opField w).toNat ≤ 7) :
    reservedFieldsZero w = true ↔ immField w = 0 := by
  have : (opField w).toNat = 4 ∨ (opField w).toNat = 5 ∨ (opField w).toNat = 6 ∨ (opField w).toNat = 7 := by omega
  rcases this with h | h | h | h <;> simp [reservedFieldsZero, h]

/-- Formats `XVI` and `VVI`. -/
theorem reservedFieldsZero_extr_shift
    (h : (opField w).toNat = 9 ∨ (opField w).toNat = 13 ∨ (opField w).toNat = 14) :
    reservedFieldsZero w = true ↔ rs2Field w = 0 := by
  rcases h with h | h | h <;> simp [reservedFieldsZero, h]

/-- Format `VX`. -/
theorem reservedFieldsZero_bcast (h : (opField w).toNat = 10) :
    reservedFieldsZero w = true ↔ rs1Field w = 0 ∧ immField w = 0 := by
  simp [reservedFieldsZero, h]

/-- Formats `VVVI`, `VVXI` and `VVXM`: no reserved field. -/
theorem reservedFieldsZero_shuf_ins_mbcast
    (h : (opField w).toNat = 8 ∨ (opField w).toNat = 11 ∨ (opField w).toNat = 12) : reservedFieldsZero w = true := by
  rcases h with h | h | h <;> simp [reservedFieldsZero, h]

/-! ### The fault of an illegal word (R87, R88, R221) -/

theorem faultsIllegal_of_illegalWord (h : IllegalWord w) : FaultsIllegal w := fun s hs =>
  ⟨_, step_illegal hs h, faultEntered_raiseFault s s.mem .illegalCommand 0, sameMem_raiseFault s _ _⟩

theorem faultsIllegal_of_reserved_op (h : (opField w).toNat = 0 ∨ (opField w).toNat = 15) : FaultsIllegal w :=
  faultsIllegal_of_illegalWord ((illegal_iff w).2 (.inl (by simpa [opReserved] using h)))

theorem faultsIllegal_of_reserved_field (h : ¬ reservedFieldsZero w = true) : FaultsIllegal w :=
  faultsIllegal_of_illegalWord (illegalWord_iff_reservedFieldsZero.2 h)

/-! ### What a legal word decodes to (R82, R85) -/

theorem decode_legal (h : reservedFieldsZero w = true) (ws : List Word) : decode (w :: ws) = decodeLegal w ws :=
  decode_cons (legal_of_not_illegal (fun hi => illegalWord_iff_reservedFieldsZero.1 hi h)).1 h

theorem decode_setr (hop : (opField w).toNat = 1) (h : reservedFieldsZero w = true) {e : List Word}
    (he : e.length = 16) (rest : List Word) :
    decode (w :: (e ++ rest)) = .ok (.setr (regOf (rdField w)) e, rest) := by
  simp only [decode_legal h, decodeLegal, hop, takeElems_append he]

theorem decode_loadu (hop : (opField w).toNat = 2) (h : reservedFieldsZero w = true) (lo hi : Word)
    (rest : List Word) :
    decode (w :: lo :: hi :: rest) = .ok (.loadu (regOf (rdField w)) (addrOfWords lo hi), rest) := by
  simp only [decode_legal h, decodeLegal, hop, takeAddr]

theorem decode_storeu (hop : (opField w).toNat = 3) (h : reservedFieldsZero w = true) (lo hi : Word)
    (rest : List Word) :
    decode (w :: lo :: hi :: rest) = .ok (.storeu (regOf (rs1Field w)) (addrOfWords lo hi), rest) := by
  simp only [decode_legal h, decodeLegal, hop, takeAddr]

/-- The command words of `SETR` and `LOADU` that the assembler makes. -/
theorem commandWord_setr_loadu {op : Nat} (hop : op = 1 ∨ op = 2) (r : Fin 16) :
    (opField (commandWord op r 0 0 0)).toNat = op ∧ regOf (rdField (commandWord op r 0 0 0)) = r ∧
      reservedFieldsZero (commandWord op r 0 0 0) = true := by
  have hr := r.isLt
  have hw : (opField (commandWord op r 0 0 0)).toNat = op := by simp (disch := omega) only [opField_commandWord]
  refine ⟨hw, Fin.ext ?_, (reservedFieldsZero_setr_loadu (by rwa [hw])).2 ?_⟩ <;>
    simp (disch := omega) [regOf_val, BitVec.toNat_eq, rdField_commandWord, rs1Field_commandWord, rs2Field_commandWord,
      immField_commandWord]

/-- The command word of `STOREU` that the assembler makes. -/
theorem commandWord_storeu (r : Fin 16) :
    (opField (commandWord 3 0 r 0 0)).toNat = 3 ∧ regOf (rs1Field (commandWord 3 0 r 0 0)) = r ∧
      reservedFieldsZero (commandWord 3 0 r 0 0) = true := by
  have hr := r.isLt
  have hw : (opField (commandWord 3 0 r 0 0)).toNat = 3 := by simp (disch := omega) only [opField_commandWord]
  refine ⟨hw, Fin.ext ?_, (reservedFieldsZero_storeu hw).2 ?_⟩ <;>
    simp (disch := omega) [regOf_val, BitVec.toNat_eq, rdField_commandWord, rs1Field_commandWord, rs2Field_commandWord,
      immField_commandWord]

/-- A legal word of an opcode without payload decodes and leaves all that follows it. -/
theorem decode_without_payload (h : reservedFieldsZero w = true)
    (hop : 4 ≤ (opField w).toNat ∧ (opField w).toNat ≤ 14) (ws : List Word) : ∃ i, decode (w :: ws) = .ok (i, ws) := by
  rw [decode_legal h, decodeLegal]
  obtain ⟨hlo, hhi⟩ := hop
  generalize (opField w).toNat = o at hlo hhi ⊢
  interval_cases o <;> exact ⟨_, rfl⟩

end

/-! ### The rows of the opcode map (R86)

A row is known by its opcode: its mask covers `op`, and the fourteen opcodes differ. -/

section
variable {w : Word} {r q : OpcodeRow}

theorem opField_eq_of_hits (hr : r ∈ opcodeRows) (h : r.hits w = true) : opField w = opField r.pattern := by
  have hmask : ∀ r ∈ opcodeRows, opField r.mask = 15#4 := by decide
  rw [OpcodeRow.hits, beq_iff_eq] at h
  calc opField w = opField w &&& opField r.mask := by rw [hmask r hr, and_ones4]
    _ = opField r.pattern := by rw [← h, opField, opField, opField, BitVec.extractLsb'_and]

theorem row_eq_of_opField (hr : r ∈ opcodeRows) (hq : q ∈ opcodeRows) (h : opField r.pattern = opField q.pattern) :
    r = q :=
  List.inj_on_of_nodup_map (f := fun r => opField r.pattern) (by decide : (opcodeRows.map _).Nodup) hr hq h

theorem row_eq_of_hits (hr : r ∈ opcodeRows) (hq : q ∈ opcodeRows) (h1 : r.hits w = true) (h2 : q.hits w = true) :
    r = q :=
  row_eq_of_opField hr hq ((opField_eq_of_hits hr h1).symm.trans (opField_eq_of_hits hq h2))

theorem row_length (hr : r ∈ opcodeRows) (h : r.hits w = true) : r.length = lengthOfOp (opField w) := by
  have hlen : ∀ r ∈ opcodeRows, r.length = lengthOfOp (opField r.pattern) := by decide
  rw [opField_eq_of_hits hr h, hlen r hr]

theorem not_illegalWord_iff_hit : ¬ IllegalWord w ↔ ∃ r ∈ opcodeRows, r.hits w = true := by
  simp [IllegalWord]

/-- The mnemonic of what decodes is that of the row with its opcode. -/
theorem decodeLegal_mnemonic {ws rest : List Word} {i : Instr} (h : decodeLegal w ws = .ok (i, rest)) :
    ∃ r ∈ opcodeRows, (opField r.pattern).toNat = (opField w).toNat ∧ r.mnemonic = i.mnemonic := by
  unfold decodeLegal at h
  have hlt := (opField w).isLt
  generalize (opField w).toNat = o at h hlt ⊢
  interval_cases o <;> simp only [Except.ok.injEq, Prod.mk.injEq, reduceCtorEq] at h
  · obtain ⟨e, -, -, rfl⟩ := takeElems_ok h
    simp only [Instr.mnemonic]
    decide
  · obtain ⟨lo, hi, -, rfl⟩ := takeAddr_ok h
    simp only [Instr.mnemonic]
    decide
  · obtain ⟨lo, hi, -, rfl⟩ := takeAddr_ok h
    simp only [Instr.mnemonic]
    decide
  all_goals
    obtain ⟨rfl, -⟩ := h
    simp only [Instr.mnemonic]
    decide

/-- What decodes is the command of a row that hits its first word. -/
theorem decode_row {ws rest : List Word} {i : Instr} (h : decode (w :: ws) = .ok (i, rest)) :
    ∃ r ∈ opcodeRows, r.hits w = true ∧ r.mnemonic = i.mnemonic ∧ r.length = i.words := by
  obtain ⟨r, hr, hit⟩ := not_illegalWord_iff_hit.1 (not_illegal_of_decode h)
  obtain ⟨_, _, e, -, -, hd⟩ := decode_ok h
  cases e
  obtain ⟨q, hq, hop, hn⟩ := decodeLegal_mnemonic hd
  have hqr : q = r := row_eq_of_opField hq hr ((BitVec.eq_of_toNat_eq hop).trans (opField_eq_of_hits hr hit))
  exact ⟨r, hr, hit, hqr ▸ hn, (row_length hr hit).trans (decode_length h).2.symm⟩

/-- A word that a row hits decodes as that row's command when the row's length of words is there. -/
theorem decode_of_hits {ws : List Word} (hr : r ∈ opcodeRows) (hit : r.hits w = true)
    (hl : r.length ≤ (w :: ws).length) : ∃ i rest, decode (w :: ws) = .ok (i, rest) ∧ i.mnemonic = r.mnemonic := by
  rw [row_length hr hit] at hl
  obtain ⟨i, rest, hd⟩ := decode_of_length (not_illegalWord_iff_hit.2 ⟨r, hr, hit⟩) hl
  obtain ⟨q, hq, hit', hn, -⟩ := decode_row hd
  exact ⟨i, rest, hd, by rw [← hn, row_eq_of_hits hr hq hit hit']⟩

end

/-! ### Ignored bits of an immediate (R84, R89) -/

/-- Selector field `k` reads the bits below `2 * k + 2` only. -/
theorem laneSelector_congr {c c' : Imm} (k : Nat) (h : c.toNat % (2 ^ (2 * k) * 4) = c'.toNat % (2 ^ (2 * k) * 4)) :
    laneSelector c k = laneSelector c' k := by
  apply Fin.ext
  rw [laneSelector_val, laneSelector_val, ← Nat.mod_mul_right_div_self, ← Nat.mod_mul_right_div_self, h]

theorem shuffleLanes_congr (s1 s2 : WideVector) {c c' : Imm} (h : c.toNat % 256 = c'.toNat % 256) :
    shuffleLanes s1 s2 c = shuffleLanes s1 s2 c' := by
  have h0 : laneSelector c 0 = laneSelector c' 0 := laneSelector_congr 0 (by omega)
  have h1 : laneSelector c 1 = laneSelector c' 1 := laneSelector_congr 1 (by omega)
  have h2 : laneSelector c 2 = laneSelector c' 2 := laneSelector_congr 2 (by omega)
  have h3 : laneSelector c 3 = laneSelector c' 3 := laneSelector_congr 3 (by omega)
  rw [shuffleLanes, shuffleLanes, h0, h1, h2, h3]

/-! ### The step at a command word (R94, R96) -/

section
variable {s : State} {w : Word} (h : AtCommand s w)
include h

theorem AtCommand.running : s.faultIrq = false := h.2.1

theorem AtCommand.pc_lt : s.pc.toNat < s.cmd.length :=
  (List.getElem?_eq_some_iff.1 h.2.2).1

theorem AtCommand.idle_eq_false : s.idle = false := by
  simp [State.idle, h.pc_lt.ne]

/-- Where the words at `pc` decode, the step is the execution of their command. -/
theorem AtCommand.step_eq_exec {i : Instr} {rest : List Word}
    (hd : decode (w :: s.cmd.drop (s.pc.toNat + 1)) = .ok (i, rest)) : step s = exec i s := by
  rw [sequencerStep_running h.1 h.running h.pc_lt.ne, h.fetch_eq, hd]

/-- A delivery leaves the block at its command word. -/
theorem AtCommand.deliver {ws : List Word} (hl : s.cmd.length + ws.length < 2 ^ 32) : AtCommand (s.deliver ws) w := by
  rw [State.deliver_running h.running]
  exact ⟨by simpa using hl, h.running, by rw [List.getElem?_append_left h.pc_lt, h.2.2]⟩

/-- After a delivery the words behind the command word are those left in the stream, then those delivered. -/
theorem AtCommand.drop_deliver (ws : List Word) :
    (s.deliver ws).cmd.drop ((s.deliver ws).pc.toNat + 1) = s.cmd.drop (s.pc.toNat + 1) ++ ws := by
  rw [State.deliver_running h.running]
  exact List.drop_append_of_le_length h.pc_lt

end

end Sys2Proof.Machine

/-! ### The obligations -/

open Sys2Proof Sys2Proof.Machine

/-- Settles O7: a row is known by its opcode, so rows are disjoint, and the decoder's command has the row's mnemonic. -/
theorem opcodeMapMatchesDecoder : Obligations.OpcodeMapMatchesDecoder :=
  ⟨fun _ _ hr _ hq h1 h2 => row_eq_of_hits hr hq h1 h2, fun _ _ _ _ h => decode_row h,
    fun _ _ _ hr hit hl => decode_of_hits hr hit hl, fun _ h => faultsIllegal_of_illegalWord h⟩

/-- Settles O9: the payload is read off the three payload-carrying words; a signed element is its residue mod `2^32`. -/
theorem payloadAssembly : Obligations.PayloadAssembly := by
  refine ⟨fun r lo hi rest => ⟨addrOfWords lo hi, addrOfWords_toNat lo hi, ?_, ?_⟩, fun r e rest he => ?_, fun n h1 h2 => ?_⟩
  · obtain ⟨hop, hrd, hlegal⟩ := commandWord_setr_loadu (.inr rfl) r
    rw [decode_loadu hop hlegal, hrd]
  · obtain ⟨hop, hrs1, hlegal⟩ := commandWord_storeu r
    rw [decode_storeu hop hlegal, hrs1]
  · obtain ⟨hop, hrd, hlegal⟩ := commandWord_setr_loadu (.inl rfl) r
    rw [decode_setr hop hlegal he, hrd]
  · rw [signedElem, BitVec.toNat_ofInt]
    omega

/-- Settles O10: a reserved opcode is illegal by the opcode alone. -/
theorem reservedOpcodesFault : Obligations.ReservedOpcodesFault :=
  ⟨fun _ => faultsIllegal_of_reserved_op, faultsIllegal_of_reserved_op (.inl rfl), faultsIllegal_of_reserved_op (.inr rfl)⟩

/-- Settles O11: in each format the reserved fields are those whose zero makes the word legal. -/
theorem reservedFieldsFault : Obligations.ReservedFieldsFault := by
  refine fun w => ⟨fun hop h => ?_, fun hop h => ?_, fun hop h => ?_, fun hop h => ?_, fun hop h => ?_, fun hop ws => ?_⟩
  · exact faultsIllegal_of_reserved_field (by rw [reservedFieldsZero_setr_loadu hop]; tauto)
  · exact faultsIllegal_of_reserved_field (by rw [reservedFieldsZero_storeu hop]; tauto)
  · exact faultsIllegal_of_reserved_field (by rwa [reservedFieldsZero_vvv hop])
  · exact faultsIllegal_of_reserved_field (by rwa [reservedFieldsZero_extr_shift hop])
  · exact faultsIllegal_of_reserved_field (by rw [reservedFieldsZero_bcast hop]; tauto)
  · exact decode_without_payload (reservedFieldsZero_shuf_ins_mbcast hop) (by omega) ws

/-- Settles O12: the three commands read the immediate through its selector fields only. -/
theorem ignoredImmediateBits : Obligations.IgnoredImmediateBits := by
  refine ⟨fun vd vs1 vs2 c c' s h => ?_, fun xd vs1 c c' s h => ?_, fun vd vs1 xs2 c c' s h => ?_, fun w ws hop => ?_⟩
  · rw [exec, execShuf, shuffleLanes_congr _ _ h, exec, execShuf]
  · rw [exec, execExtr, laneSelector_congr 0 h, exec, execExtr]
  · rw [exec, execIns, laneSelector_congr 0 h, exec, execIns]
  · rcases hop with hop | ⟨hop, hrs2⟩ | hop
    · exact decode_without_payload (reservedFieldsZero_shuf_ins_mbcast (.inl hop)) (by omega) ws
    · exact decode_without_payload ((reservedFieldsZero_extr_shift (.inl hop)).2 hrs2) (by omega) ws
    · exact decode_without_payload (reservedFieldsZero_shuf_ins_mbcast (.inr (.inl hop))) (by omega) ws

/-- Settles O13: the length of what decodes, and the fault of an illegal word, which no word after it delays. -/
theorem lengthFromOpAndLegalityFirst : Obligations.LengthFromOpAndLegalityFirst :=
  ⟨fun _ _ _ _ h => decode_length h, fun s _ hs hi _ => faultsIllegal_of_illegalWord hi s hs,
    fun _ => faultsIllegal_of_illegalWord⟩

/-- Settles O16: a delivery leaves the block at its legal word, which decodes once its payload is there. -/
theorem truncatedCommandIsStuck : Obligations.TruncatedCommandIsStuck := by
  intro s w hs hlegal hshort
  refine ⟨fun t => by simp [step_truncated hs hlegal hshort], hs.running, hs.idle_eq_false, fun ws henough hmax => ?_⟩
  have hpc := hs.pc_lt
  obtain ⟨i, rest, hd⟩ := decode_of_length (ws := s.cmd.drop (s.pc.toNat + 1) ++ ws) hlegal
    (by simp only [List.length_append, List.length_drop]; omega)
  exact ⟨i, rest, hd, (hs.deliver hmax).step_eq_exec ((congrArg (decode <| w :: ·) (hs.drop_deliver ws)).trans hd)⟩
end

section
/-! PROOFS. The family of 40_construct.md: `SETR` (R120). -/

namespace Sys2Proof.Machine

/-- A `SETR` of sixteen elements completes and leaves them, in order, in its destination. -/
theorem exec_setr_completes (vd : VReg) {e : List Word} (he : e.length = 16) (s : State) :
    ∃ t, exec (.setr vd e) s = .next t ∧ OnlyV s t vd 17 ∧ ∀ i, i < 16 → e[i]? = some (vecElem (t.readV vd) i) := by
  refine ⟨_, if_pos he, onlyV_writeV_advance s vd _ 17, fun i hi => ?_⟩
  rw [State.readV_advance, State.readV_writeV_same, vecElem_vecOfElems _ hi]
  simp [he, hi]

end Sys2Proof.Machine

/-! ### The obligations -/

open Sys2Proof Sys2Proof.Machine

/-- Settles O24: the lanes and the bytes of the destination are read off its sixteen elements. -/
theorem setrRule : Obligations.SetrRule := by
  refine ⟨fun vd e => by simp [encode, commandWord], fun w hop h => ?_, fun s w hs hop hlegal hshort => ?_,
    fun vd e s he => ?_⟩
  · exact faultsIllegal_of_reserved_field (by rw [reservedFieldsZero_setr_loadu (.inl hop)]; tauto)
  · have hstuck := step_truncated hs hlegal (by rwa [lengthOfOp, if_pos hop])
    exact ⟨fun t => by simp [hstuck], hs.running⟩
  · obtain ⟨t, ht, hframe, helem⟩ := exec_setr_completes vd he s
    refine ⟨t, ht, hframe, fun k p hp => ?_, fun i j x hi hj hx => ?_⟩
    · rw [helem _ (by omega), vecElem_lane _ k hp]
    · obtain rfl : vecElem (t.readV vd) i = x := Option.some.inj ((helem i hi).symm.trans hx)
      rw [vecByte_eq_elem, show (4 * i + j) / 4 = i by omega, show (4 * i + j) % 4 = j by omega]
end

section
/-! PROOFS. The family of 41_loadstore.md: `LOADU`, `STOREU`, and their access faults (R130 to R133). -/

namespace Sys2Proof.Machine

/-- The two payload words of an address, low half first (R85). -/
theorem wordsOfAddr_eq_ofNat (addr : Addr) :
    wordsOfAddr addr = [BitVec.ofNat 32 addr.toNat, BitVec.ofNat 32 (addr.toNat / 2 ^ 32)] := by
  simp [wordsOfAddr, BitVec.toNat_eq, Nat.shiftRight_eq_div_pow]

/-! ### The window check (R132) -/

section
variable {addr : Addr} (h : 2 ^ 64 - 64 < addr.toNat)
include h

theorem not_windowFits_of_lt : ¬ windowFits addr = true := by
  rw [(windowFits_false_iff addr).2 h]
  exact Bool.false_ne_true

theorem exec_loadu_past_top (vd : VReg) (s : State) :
    ∃ t, exec (.loadu vd addr) s = .next t ∧ FaultEntered s t 2 addr ∧ SameMem s t :=
  ⟨_, if_neg (not_windowFits_of_lt h), faultEntered_raiseFault s s.mem .loadAccess addr, sameMem_raiseFault s _ _⟩

theorem exec_storeu_past_top (vs1 : VReg) (s : State) :
    ∃ t, exec (.storeu vs1 addr) s = .next t ∧ FaultEntered s t 3 addr ∧ SameMem s t :=
  ⟨_, if_neg (not_windowFits_of_lt h), faultEntered_raiseFault s s.mem .storeAccess addr, sameMem_raiseFault s _ _⟩

end

/-! ### The first lane answered "error" (R130, R133) -/

section
variable {addr : Addr} {s : State} {k : Fin 4} (hfit : addr.toNat ≤ 2 ^ 64 - 64) (hk : FirstError s addr.toNat k)
include hfit hk

/-- The load stops at lane `k` before the destination is written. -/
theorem exec_loadu_firstError (vd : VReg) :
    ∃ t, exec (.loadu vd addr) s = .next t ∧ FaultEntered s t 2 (addr + BitVec.ofNat 64 (16 * k.val)) ∧ SameMem s t := by
  refine ⟨_, ?_, faultEntered_raiseFault s s.mem .loadAccess _, sameMem_raiseFault s _ _⟩
  rcases execLoadu_cases vd addr s with ⟨hpast, -⟩ | ⟨hdone, -⟩ | ⟨j, -, hj, hrun⟩
  · omega
  · exact absurd hdone hk.not_done
  · rwa [← hj.unique hk]

/-- The store stops at lane `k` with the lanes before it written. -/
theorem exec_storeu_firstError (hm : s.mem.wf = true) (vs1 : VReg) :
    ∃ t, exec (.storeu vs1 addr) s = .next t ∧ FaultEntered s t 3 (addr + BitVec.ofNat 64 (16 * k.val)) ∧
      Stored s t (s.readV vs1) addr.toNat (16 * k.val) := by
  rcases execStoreu_cases vs1 addr s with ⟨hpast, -⟩ | ⟨hdone, -⟩ | ⟨j, m, -, hj, hmem, hrun⟩
  · omega
  · exact absurd hdone hk.not_done
  · obtain rfl := hj.unique hk
    exact ⟨_, hrun, faultEntered_raiseFault s m .storeAccess _, stored_writeBytes hm _ (by omega) hmem⟩

end

/-! ### A valid window (R130, R131) -/

section
variable {addr : Addr} {s : State} (h : WindowValid s addr.toNat)
include h

theorem exec_loadu_completes (vd : VReg) :
    ∃ t, exec (.loadu vd addr) s = .next t ∧ OnlyV s t vd 3 ∧
      ∀ j, j < 64 → vecByte (t.readV vd) j = s.readByte (addr.toNat + j) := by
  obtain ⟨w, hbytes, hrun⟩ := execLoadu_valid vd h
  exact ⟨_, hrun, onlyV_writeV_advance s vd w 3, by simpa using hbytes⟩

theorem exec_storeu_completes (hm : s.mem.wf = true) (vs1 : VReg) :
    ∃ t, exec (.storeu vs1 addr) s = .next t ∧ OnlyMem s t 3 ∧ Stored s t (s.readV vs1) addr.toNat 64 := by
  obtain ⟨m, hmem, hrun⟩ := execStoreu_valid vs1 h
  exact ⟨_, hrun, onlyMem_setMem_advance s m 3, stored_writeBytes hm _ h.le hmem⟩

end

end Sys2Proof.Machine

/-! ### The obligations -/

open Sys2Proof Sys2Proof.Machine

/-- Settles O22: the window check comes before the first access of both commands. -/
theorem windowCheckFaults : Obligations.WindowCheckFaults :=
  fun r _ s h => ⟨exec_loadu_past_top h r s, exec_storeu_past_top h r s⟩

/-- Settles O23: the first lane answered "error" is unique, and the stored bytes are those of the lanes before it. -/
theorem partialStore : Obligations.PartialStore :=
  fun vs1 _ _ _ hm hfit hk => exec_storeu_firstError hfit hk hm vs1

/-- Settles O25: one clause for each way a load can go; the lanes of the destination are read off its bytes. -/
theorem loaduRule : Obligations.LoaduRule := by
  refine ⟨fun vd addr => by simp [encode, commandWord, wordsOfAddr_eq_ofNat], fun w hop h => ?_,
    fun vd addr s => ⟨fun hvalid => ?_, fun h => exec_loadu_past_top h vd s,
      fun k hfit hk => exec_loadu_firstError hfit hk vd⟩⟩
  · exact faultsIllegal_of_reserved_field (by rw [reservedFieldsZero_setr_loadu (.inr hop)]; tauto)
  · obtain ⟨t, ht, hframe, hbytes⟩ := exec_loadu_completes hvalid vd
    refine ⟨t, ht, hframe, fun k j hj => ?_⟩
    rw [← vecByte_lane _ k hj, hbytes _ (by omega), Nat.add_assoc]

/-- Settles O26: one clause for each way a store can go, with the bytes of memory that it leaves. -/
theorem storeuRule : Obligations.StoreuRule := by
  refine ⟨fun vs1 addr => by simp [encode, commandWord, wordsOfAddr_eq_ofNat], fun w hop h => ?_,
    fun vs1 addr s hm => ⟨fun hvalid => exec_storeu_completes hvalid hm vs1, fun h => exec_storeu_past_top h vs1 s,
      fun k hfit hk => exec_storeu_firstError hfit hk hm vs1⟩⟩
  exact faultsIllegal_of_reserved_field (by rw [reservedFieldsZero_storeu hop]; tauto)
end

section
/-! PROOFS. The family of 42_bitwise.md: `VXOR`, `VOR`, `VAND` (R150 to R152). -/

namespace Sys2Proof.Machine

/-! ### The format `VVV` (R81, R82, R88) -/

/-- The word the assembler makes for a `VVV` command: the immediate is zero and adds nothing. -/
theorem commandWord_vvv (op vd vs1 vs2 : Nat) :
    commandWord op vd vs1 vs2 0 = BitVec.ofNat 32 (op + vd * 2 ^ 4 + vs1 * 2 ^ 8 + vs2 * 2 ^ 12) := by
  rw [commandWord, Nat.zero_mul, Nat.add_zero]

theorem faultsIllegal_vvv {w : Word} (hop : 4 ≤ (opField w).toNat ∧ (opField w).toNat ≤ 7) (himm : immField w ≠ 0) :
    FaultsIllegal w :=
  faultsIllegal_of_reserved_field (by rwa [reservedFieldsZero_vvv hop])

/-! ### The destination of a `VVV` command -/

/-- The sources are read before the write, so the destination may be one of them. -/
theorem readV_vvv (f : WideVector → WideVector → WideVector) (vd vs1 vs2 : VReg) (s : State) :
    (vvv f vd vs1 vs2 s).readV vd = f (s.readV vs1) (s.readV vs2) := by
  rw [vvv, State.readV_advance, State.readV_writeV_same]

/-- An idempotent function of two lanes copies a vector that is both of its sources. -/
theorem vecZip_self {f : Lane → Lane → Lane} (hf : ∀ l, f l l = l) (w : WideVector) : vecZip f w w = w :=
  vec_ext_lanes fun k => by rw [vecLane_vecZip, hf]

theorem readV_vvv_copy {f : Lane → Lane → Lane} (hf : ∀ l, f l l = l) (vd : VReg) {vs1 vs2 : VReg} (h : vs1 = vs2)
    (s : State) : (vvv (vecZip f) vd vs1 vs2 s).readV vd = s.readV vs1 := by
  rw [readV_vvv, ← h, vecZip_self hf]

theorem vecByte_vvv_xor (vd vs1 vs2 : VReg) (s : State) (j : Nat) :
    vecByte ((vvv (vecZip fun a b => a ^^^ b) vd vs1 vs2 s).readV vd) j =
      vecByte (s.readV vs1) j ^^^ vecByte (s.readV vs2) j := by
  rw [vecByte, vecLane_vvv, laneByte_xor, vecByte, vecByte]

end Sys2Proof.Machine

/-! ### The obligations -/

open Sys2Proof Sys2Proof.Machine

/-- Settles O27: the exclusive-or of lanes is that of their bytes, and a byte cancels itself. -/
theorem vxorRule : Obligations.VxorRule := by
  refine ⟨fun vd vs1 vs2 => congrArg ([·]) (commandWord_vvv 4 vd vs1 vs2),
    fun w hop himm => faultsIllegal_vvv (by omega) himm,
    fun vd vs1 vs2 s => ⟨_, rfl, onlyV_vvv _ vd vs1 vs2 s, vecLane_vvv _ vd vs1 vs2 s,
      fun j _ => vecByte_vvv_xor vd vs1 vs2 s j, fun hsame j _ => ?_⟩⟩
  rw [vecByte_vvv_xor, hsame]
  exact BitVec.xor_self

/-- Settles O28: the inclusive-or is idempotent, so equal sources are copied. -/
theorem vorRule : Obligations.VorRule :=
  ⟨fun vd vs1 vs2 => congrArg ([·]) (commandWord_vvv 5 vd vs1 vs2),
    fun _ hop himm => faultsIllegal_vvv (by omega) himm,
    fun vd vs1 vs2 s => ⟨_, rfl, onlyV_vvv _ vd vs1 vs2 s, vecLane_vvv _ vd vs1 vs2 s,
      fun hsame => readV_vvv_copy (fun _ => BitVec.or_self) vd hsame s⟩⟩

/-- Settles O29: the and is idempotent, so equal sources are copied. -/
theorem vandRule : Obligations.VandRule :=
  ⟨fun vd vs1 vs2 => congrArg ([·]) (commandWord_vvv 6 vd vs1 vs2),
    fun _ hop himm => faultsIllegal_vvv (by omega) himm,
    fun vd vs1 vs2 s => ⟨_, rfl, onlyV_vvv _ vd vs1 vs2 s, vecLane_vvv _ vd vs1 vs2 s,
      fun hsame => readV_vvv_copy (fun _ => BitVec.and_self) vd hsame s⟩⟩
end

section
/-! PROOFS. The family of 44_lane.md: `SHUF`, `EXTR`, `BCAST`, `INS` (R180 to R183). -/

namespace Sys2Proof.Machine

/-! ### Selector fields (R84) -/

theorem eq_laneSelector_iff {imm : Imm} {k : Nat} {f : Fin 4} :
    f = laneSelector imm k ↔ f.val = imm.toNat / 2 ^ (2 * k) % 4 := by
  rw [Fin.ext_iff, laneSelector_val]

/-- The lane index of `EXTR` and `INS`. -/
theorem eq_laneSelector_zero_iff {imm : Imm} {f : Fin 4} : f = laneSelector imm 0 ↔ f.val = imm.toNat % 4 := by
  rw [eq_laneSelector_iff, Nat.mul_zero, Nat.pow_zero, Nat.div_one]

/-! ### The lanes of the results -/

theorem vecLane_broadcastLane (l : Lane) (k : Fin 4) : vecLane (broadcastLane l) k = l :=
  vecLane_vecOfLanes (fun _ => l) k

theorem vecLane_insertLane (w : WideVector) (l : Lane) (i k : Fin 4) :
    vecLane (insertLane w l i) k = if k = i then l else vecLane w k :=
  vecLane_vecOfLanes _ k

/-! ### The formats without a reserved field (R82, R89) -/

section
variable {w : Word}

theorem decode_shuf (hop : (opField w).toNat = 8) (ws : List Word) :
    decode (w :: ws) =
      .ok (.shuf (regOf (rdField w)) (regOf (rs1Field w)) (regOf (rs2Field w)) (immField w), ws) := by
  simp only [decode_legal (reservedFieldsZero_shuf_ins_mbcast (.inl hop)), decodeLegal, hop]

theorem decode_ins (hop : (opField w).toNat = 11) (ws : List Word) :
    decode (w :: ws) =
      .ok (.ins (regOf (rdField w)) (regOf (rs1Field w)) (regOf (rs2Field w)) (immField w), ws) := by
  simp only [decode_legal (reservedFieldsZero_shuf_ins_mbcast (.inr (.inl hop))), decodeLegal, hop]

end

end Sys2Proof.Machine

/-! ### The obligations -/

open Sys2Proof Sys2Proof.Machine

/-- Settles O35: the four fields of the control are the four selectors, two for each source. -/
theorem shufRule : Obligations.ShufRule := by
  refine ⟨fun vd vs1 vs2 ctl => rfl, fun w ws hop => ⟨_, _, _, _, decode_shuf hop ws⟩,
    fun vd vs1 vs2 ctl s => ⟨_, rfl, onlyV_writeV_advance s vd _ 1, fun f0 f1 f2 f3 h0 h1 h2 h3 => ?_⟩⟩
  obtain rfl : f0 = laneSelector ctl 0 := eq_laneSelector_zero_iff.2 h0
  obtain rfl : f1 = laneSelector ctl 1 := eq_laneSelector_iff.2 h1
  obtain rfl : f2 = laneSelector ctl 2 := eq_laneSelector_iff.2 h2
  obtain rfl : f3 = laneSelector ctl 3 := eq_laneSelector_iff.2 h3
  rw [State.readV_advance, State.readV_writeV_same]
  exact ⟨rfl, rfl, rfl, rfl⟩

/-- Settles O36: the lane index is field 0 of the immediate. -/
theorem extrRule : Obligations.ExtrRule := by
  refine ⟨fun xd vs1 idx => by simp [encode, commandWord], fun w hop h => ?_,
    fun xd vs1 idx s => ⟨_, rfl, onlyX_writeX_advance s xd _ 1, fun k hk => ?_⟩⟩
  · exact faultsIllegal_of_reserved_field (by rwa [reservedFieldsZero_extr_shift (.inl hop)])
  · rw [State.readX_advance, State.readX_writeX_same, eq_laneSelector_zero_iff.2 hk]

/-- Settles O37: every lane of a broadcast is the lane register. -/
theorem bcastRule : Obligations.BcastRule := by
  refine ⟨fun vd xs2 => by simp [encode, commandWord], fun w hop h => ?_,
    fun vd xs2 s => ⟨_, rfl, onlyV_writeV_advance s vd _ 1, fun k => ?_⟩⟩
  · exact faultsIllegal_of_reserved_field (by rw [reservedFieldsZero_bcast hop]; tauto)
  · rw [State.readV_advance, State.readV_writeV_same, vecLane_broadcastLane]

/-- Settles O38: the lane that the index names is replaced and the others are those of the source. -/
theorem insRule : Obligations.InsRule := by
  refine ⟨fun vd vs1 xs2 idx => rfl, fun w ws hop => ⟨_, _, _, _, decode_ins hop ws⟩,
    fun vd vs1 xs2 idx s => ⟨_, rfl, onlyV_writeV_advance s vd _ 1, fun k => ?_⟩⟩
  rw [State.readV_advance, State.readV_writeV_same, vecLane_insertLane]
  exact if_congr eq_laneSelector_zero_iff rfl rfl
end

section
/-! PROOFS. The family of 45_maskbcast.md: `MBCAST` (R201). -/

namespace Sys2Proof.Machine

/-! ### The format without a reserved field (R82) -/

theorem decode_mbcast {w : Word} (hop : (opField w).toNat = 12) (ws : List Word) :
    decode (w :: ws) =
      .ok (.mbcast (regOf (rdField w)) (regOf (rs1Field w)) (regOf (rs2Field w)) (immField w), ws) := by
  simp only [decode_legal (reservedFieldsZero_shuf_ins_mbcast (.inr (.inr hop))), decodeLegal, hop]

/-! ### The masked select of every element (R200, R201) -/

/-- `MBCAST` completes from every state, and element `p` of lane `k` is selected by mask bit `4 * k + p`. The sources are
read before the write, so the destination may be the vector source. -/
theorem exec_mbcast_completes (vd vs1 : VReg) (xs2 : XReg) (mask : Imm) (s : State) :
    ∃ t, exec (.mbcast vd vs1 xs2 mask) s = .next t ∧ OnlyV s t vd 1 ∧
      ∀ (k : Fin 4) (p : Nat), p < 4 → laneElem (vecLane (t.readV vd) k) p =
        selectXorAnd (laneElem (vecLane (s.readV vs1) k) p) (laneElem (s.readX xs2) p)
          (elementMask mask (4 * k.val + p)) := by
  refine ⟨_, rfl, onlyV_writeV_advance s vd _ 1, fun k p hp => ?_⟩
  rw [State.readV_advance, State.readV_writeV_same, ← vecElem_lane _ k hp, vecElem_vecOfElems _ (by omega),
    vecElem_lane _ k hp, Nat.mul_add_mod, Nat.mod_eq_of_lt hp]

theorem maskBit_ones {i : Nat} (hi : i < 16) : maskBit 0xFFFF i = true := by
  rw [maskBit, show (0xFFFF : Imm) = BitVec.allOnes 16 from rfl, BitVec.getLsbD_allOnes, decide_eq_true hi]

theorem maskBit_zero (i : Nat) : maskBit 0x0000 i = false := BitVec.getLsbD_zero

end Sys2Proof.Machine

/-! ### The obligations -/

open Sys2Proof Sys2Proof.Machine

/-- Settles O40: the exclusive-or/and form picks by the mask bit, and the two extreme masks pick alike for every element. -/
theorem mbcastRule : Obligations.MbcastRule := by
  refine ⟨fun vd vs1 xs2 mask => rfl, fun w ws hop => ⟨_, _, _, _, decode_mbcast hop ws⟩, fun vd vs1 xs2 mask s => ?_⟩
  obtain ⟨t, ht, hframe, helem⟩ := exec_mbcast_completes vd vs1 xs2 mask s
  refine ⟨t, ht, hframe, ?_, ?_, ?_⟩
  · rintro k p hp _ _ _ rfl rfl rfl
    exact ⟨helem k p hp, (helem k p hp).trans (selectXorAnd_elementMask _ _ _ _)⟩
  · rintro rfl k
    refine lane_ext_elems fun p hp => ?_
    rw [helem k p hp, selectXorAnd_elementMask, maskBit_ones (by omega), if_pos rfl]
  · rintro rfl
    refine vec_ext_lanes fun k => lane_ext_elems fun p hp => ?_
    rw [helem k p hp, selectXorAnd_elementMask, maskBit_zero, if_neg Bool.false_ne_true]
end

section
/-! PROOFS. The family of 46_shift.md: `SLL`, `SRL` (R210, R211). -/

namespace Sys2Proof.Machine

/-! ### The format `VVI` (R81, R82, R88) -/

/-- The word the assembler makes for a shift: the field `rs2` is zero and adds nothing. -/
theorem commandWord_vvi (op vd vs1 imm : Nat) :
    commandWord op vd vs1 0 imm = BitVec.ofNat 32 (op + vd * 2 ^ 4 + vs1 * 2 ^ 8 + imm * 2 ^ 16) := by
  rw [commandWord, Nat.zero_mul, Nat.add_zero]

theorem faultsIllegal_vvi {w : Word} (hop : (opField w).toNat = 13 ∨ (opField w).toNat = 14) (h : rs2Field w ≠ 0) :
    FaultsIllegal w :=
  faultsIllegal_of_reserved_field (by rwa [reservedFieldsZero_extr_shift (.inr hop)])

/-! ### One element (R210, R211) -/

theorem sllElem_toNat (cnt : Nat) (x : Word) :
    (sllElem cnt x).toNat = if 32 ≤ cnt then 0 else x.toNat * 2 ^ cnt % 2 ^ 32 := by
  rw [sllElem, apply_ite BitVec.toNat, BitVec.toNat_ofNat]
  rfl

/-- The quotient of a word is below `2^32`, so nothing is lost when it becomes a word again. -/
theorem srlElem_toNat (cnt : Nat) (x : Word) :
    (srlElem cnt x).toNat = if 32 ≤ cnt then 0 else x.toNat / 2 ^ cnt := by
  rw [srlElem, apply_ite BitVec.toNat, BitVec.toNat_ofNat, Nat.mod_eq_of_lt ((Nat.div_le_self _ _).trans_lt x.isLt)]
  rfl

theorem sllElem_zero (x : Word) : sllElem 0 x = x :=
  BitVec.eq_of_toNat_eq (by
    rw [sllElem_toNat, if_neg (by decide), Nat.pow_zero, Nat.mul_one, Nat.mod_eq_of_lt x.isLt])

theorem srlElem_zero (x : Word) : srlElem 0 x = x :=
  BitVec.eq_of_toNat_eq (by rw [srlElem_toNat, if_neg (by decide), Nat.pow_zero, Nat.div_one])

/-! ### The state after a shift -/

/-- `V[vd]` gets every element of `V[vs1]` through `f`, and `pc` advances by the one word of the command. -/
def mapElems (f : Word → Word) (vd vs1 : VReg) (s : State) : State :=
  (s.writeV vd (vecOfElems fun i => f (vecElem (s.readV vs1) i))).advance 1

theorem exec_sll (vd vs1 : VReg) (cnt : Imm) (s : State) :
    exec (.sll vd vs1 cnt) s = .next (mapElems (sllElem cnt.toNat) vd vs1 s) := rfl

theorem exec_srl (vd vs1 : VReg) (cnt : Imm) (s : State) :
    exec (.srl vd vs1 cnt) s = .next (mapElems (srlElem cnt.toNat) vd vs1 s) := rfl

theorem onlyV_mapElems (f : Word → Word) (vd vs1 : VReg) (s : State) : OnlyV s (mapElems f vd vs1 s) vd 1 :=
  onlyV_writeV_advance s vd _ 1

/-- The source is read before the write, so the destination may be the source. -/
theorem vecElem_mapElems (f : Word → Word) (vd vs1 : VReg) (s : State) {e : Nat} (he : e < 16) :
    vecElem ((mapElems f vd vs1 s).readV vd) e = f (vecElem (s.readV vs1) e) := by
  rw [mapElems, State.readV_advance, State.readV_writeV_same, vecElem_vecOfElems _ he]

theorem readV_mapElems_copy {f : Word → Word} (hf : ∀ x, f x = x) (vd vs1 : VReg) (s : State) :
    (mapElems f vd vs1 s).readV vd = s.readV vs1 :=
  vec_ext_elems fun e he => by rw [vecElem_mapElems f vd vs1 s he, hf]

end Sys2Proof.Machine

/-! ### The obligations -/

open Sys2Proof Sys2Proof.Machine

/-- Settles O41: every element is shifted left on its own, and a count of 0 leaves each as it is. -/
theorem sllRule : Obligations.SllRule := by
  refine ⟨fun vd vs1 cnt => congrArg ([·]) (commandWord_vvi 13 vd vs1 cnt.toNat),
    fun w hop h => faultsIllegal_vvi (.inl hop) h,
    fun vd vs1 cnt s => ⟨_, exec_sll vd vs1 cnt s, onlyV_mapElems _ vd vs1 s, fun e he => ?_, ?_⟩⟩
  · rw [vecElem_mapElems _ vd vs1 s he, sllElem_toNat]
  · rintro rfl
    exact readV_mapElems_copy sllElem_zero vd vs1 s

/-- Settles O42: every element is shifted right on its own, and a count of 0 leaves each as it is. -/
theorem srlRule : Obligations.SrlRule := by
  refine ⟨fun vd vs1 cnt => congrArg ([·]) (commandWord_vvi 14 vd vs1 cnt.toNat),
    fun w hop h => faultsIllegal_vvi (.inr hop) h,
    fun vd vs1 cnt s => ⟨_, exec_srl vd vs1 cnt s, onlyV_mapElems _ vd vs1 s, fun e he => ?_, ?_⟩⟩
  · rw [vecElem_mapElems _ vd vs1 s he, srlElem_toNat]
  · rintro rfl
    exact readV_mapElems_copy srlElem_zero vd vs1 s
end

section
/-! PROOFS. The family of 60_exceptions.md: the three faults, when each is raised, and what it leaves (R220, R224, R227). -/

namespace Sys2Proof.Machine

/-! ### The step where a command decodes (R94, R227) -/

theorem step_eq_exec_of_decode {s : State} {i : Instr} {rest : List Word} (hlen : s.cmd.length < 2 ^ 32)
    (hrun : s.faultIrq = false) (hd : decode s.fetch = .ok (i, rest)) : step s = exec i s := by
  have hpc : s.pc.toNat ≠ s.cmd.length := fun he => by
    rw [State.fetch, he, List.drop_length] at hd
    cases hd
  rw [sequencerStep_running hlen hrun hpc, hd]

/-- A step from a state where a command decodes is the execution of that command. -/
theorem exec_of_step_of_decode {s t : State} {i : Instr} {rest : List Word} (h : step s = .next t)
    (hd : decode s.fetch = .ok (i, rest)) : exec i s = .next t := by
  obtain ⟨hlen, hrun, -, -⟩ := step_cases h
  rw [← step_eq_exec_of_decode hlen hrun hd, h]

theorem step_ne_next_of_faultIrq {s : State} (h : s.faultIrq = true) (t : State) : step s ≠ .next t := fun ht =>
  Bool.false_ne_true ((step_cases ht).2.1.symm.trans h)

/-! ### The commands that fault (R220, R224) -/

/-- The fault `code` of an access to the window at `addr` is recorded with the address of R224: `addr` when the window
passes the top of the address space, else that of the first lane answered "error". -/
def AccessFaultEntered (s t : State) (code : Nat) (addr : Addr) : Prop :=
  (2 ^ 64 - 64 < addr.toNat ∧ FaultEntered s t code addr) ∨
    ∃ k, addr.toNat ≤ 2 ^ 64 - 64 ∧ FirstError s addr.toNat k ∧
      FaultEntered s t code (addr + BitVec.ofNat 64 (16 * k.val))

/-- Only `LOADU` and `STOREU` fault: every other way a command can end keeps the fault status. -/
theorem exec_fault_cases {i : Instr} {s t : State} (h : exec i s = .next t) (hs : s.faultIrq = false)
    (ht : t.faultIrq = true) :
    (∃ vd addr, i = .loadu vd addr ∧ AccessFaultEntered s t 2 addr) ∨
      ∃ vs1 addr, i = .storeu vs1 addr ∧ AccessFaultEntered s t 3 addr := by
  have hchanged : ¬ t.fstat = s.fstat := fun he =>
    Bool.false_ne_true (hs.symm.trans ((State.faultIrq_congr he).symm.trans ht))
  rcases exec_cases h with ⟨_, _, _, rfl⟩ | ⟨_, _, _, rfl⟩ | ⟨_, _, _, _, _, _, rfl⟩ | ⟨vd, addr, hi, hpast, rfl⟩ |
    ⟨vd, addr, k, hi, hfit, hk, rfl⟩ | ⟨vs1, addr, hi, hpast, rfl⟩ | ⟨vs1, addr, k, m, hi, hfit, hk, -, rfl⟩
  · exact absurd rfl hchanged
  · exact absurd rfl hchanged
  · exact absurd rfl hchanged
  · exact .inl ⟨vd, addr, hi, .inl ⟨hpast, faultEntered_raiseFault s s.mem .loadAccess _⟩⟩
  · exact .inl ⟨vd, addr, hi, .inr ⟨k, hfit, hk, faultEntered_raiseFault s s.mem .loadAccess _⟩⟩
  · exact .inr ⟨vs1, addr, hi, .inl ⟨hpast, faultEntered_raiseFault s s.mem .storeAccess _⟩⟩
  · exact .inr ⟨vs1, addr, hi, .inr ⟨k, hfit, hk, faultEntered_raiseFault s m .storeAccess _⟩⟩

/-- The fault registers after a store that stops at lane `k`, whatever the form of the memory. -/
theorem exec_storeu_firstError_entered {s : State} {addr : Addr} {k : Fin 4} (hfit : addr.toNat ≤ 2 ^ 64 - 64)
    (hk : FirstError s addr.toNat k) (vs1 : VReg) :
    ∃ t, exec (.storeu vs1 addr) s = .next t ∧ FaultEntered s t 3 (addr + BitVec.ofNat 64 (16 * k.val)) := by
  rcases execStoreu_cases vs1 addr s with ⟨hpast, -⟩ | ⟨hdone, -⟩ | ⟨j, m, -, hj, -, hrun⟩
  · omega
  · exact absurd hdone hk.not_done
  · obtain rfl := hj.unique hk
    exact ⟨_, hrun, faultEntered_raiseFault s m .storeAccess _⟩

/-! ### Memory at a fault (R130, R227) -/

/-- `LOADU` changes no byte of memory, whether it completes or faults. -/
theorem sameMem_of_exec_loadu {vd : VReg} {addr : Addr} {s t : State} (h : exec (.loadu vd addr) s = .next t) :
    SameMem s t := by
  rcases execLoadu_cases vd addr s with ⟨-, hrun⟩ | ⟨-, w, -, hrun⟩ | ⟨k, -, -, hrun⟩ <;>
    obtain rfl := next_inj (h.symm.trans hrun)
  · exact sameMem_raiseFault s _ _
  · exact fun _ => rfl
  · exact sameMem_raiseFault s _ _

end Sys2Proof.Machine

/-! ### The obligations -/

open Sys2Proof Sys2Proof.Machine

/-- Settles O21: a step that faults is at an illegal word or executes one of the two memory commands, and the rules of these
commands give the converse. -/
theorem faultCausesAndAddress : Obligations.FaultCausesAndAddress := by
  refine ⟨fun s t h hf => ?_, fun s w hw hi => ?_, fun s r addr rest hlen hrun => ⟨fun hd => ?_, fun hd => ?_⟩⟩
  · obtain ⟨-, hrun, -, ⟨i, rest, hd, hexec⟩ | ⟨w, hw, hi, rfl⟩⟩ := step_cases h
    · rcases exec_fault_cases hexec hrun hf with ⟨vd, addr, rfl, hentered⟩ | ⟨vs1, addr, rfl, hentered⟩
      · exact .inr (.inl ⟨vd, addr, rest, hd, hentered⟩)
      · exact .inr (.inr ⟨vs1, addr, rest, hd, hentered⟩)
    · exact .inl ⟨w, hw, hi, faultEntered_raiseFault s s.mem .illegalCommand 0⟩
  · obtain ⟨t, ht, hentered, -⟩ := faultsIllegal_of_illegalWord hi s hw
    exact ⟨t, ht, hentered⟩
  · rw [step_eq_exec_of_decode hlen hrun hd]
    refine ⟨fun hpast => ?_, fun k hfit hk => ?_⟩
    · obtain ⟨t, ht, hentered, -⟩ := exec_loadu_past_top hpast r s
      exact ⟨t, ht, hentered⟩
    · obtain ⟨t, ht, hentered, -⟩ := exec_loadu_firstError hfit hk r
      exact ⟨t, ht, hentered⟩
  · rw [step_eq_exec_of_decode hlen hrun hd]
    refine ⟨fun hpast => ?_, fun k hfit hk => exec_storeu_firstError_entered hfit hk r⟩
    obtain ⟨t, ht, hentered, -⟩ := exec_storeu_past_top hpast r s
    exact ⟨t, ht, hentered⟩

/-- Settles O20: O21 gives the cause and the address of the fault, and the rule of the command at `pc` the memory. -/
theorem faultEntryIsPrecise : Obligations.FaultEntryIsPrecise := by
  intro s t hm h hf
  obtain ⟨-, hrun, -, -⟩ := step_cases h
  refine ⟨hrun, ?_, step_ne_next_of_faultIrq hf, State.deliver_halted hf⟩
  rcases faultCausesAndAddress.1 s t h hf with ⟨w, hw, hi, hentered⟩ | ⟨vd, addr, rest, hd, hentered⟩ |
    ⟨vs1, addr, rest, hd, ⟨hpast, hentered⟩ | ⟨k, hfit, hk, hentered⟩⟩
  · obtain rfl := next_inj (h.symm.trans (step_illegal hw hi))
    exact .inl ⟨w, hw, hi, hentered, sameMem_raiseFault s _ _⟩
  · exact .inr (.inl ⟨vd, addr, rest, hd, sameMem_of_exec_loadu (exec_of_step_of_decode h hd), hentered⟩)
  · obtain ⟨u, hu, -, hsame⟩ := exec_storeu_past_top hpast vs1 s
    obtain rfl := next_inj ((exec_of_step_of_decode h hd).symm.trans hu)
    exact .inr (.inr ⟨vs1, addr, rest, hd, .inl ⟨hpast, hentered, hsame⟩⟩)
  · obtain ⟨u, hu, -, hstored⟩ := exec_storeu_firstError hfit hk hm vs1
    obtain rfl := next_inj ((exec_of_step_of_decode h hd).symm.trans hu)
    exact .inr (.inr ⟨vs1, addr, rest, hd, .inr ⟨k, hfit, hk, hentered, hstored⟩⟩)
end

section
/-! PROOFS. What the execution of any command leaves of the machine, read off `exec_cases` once. -/

namespace Sys2Proof.Machine

section
variable {i : Instr} {s t : State} (h : exec i s = .next t)
include h

theorem sameRun_of_exec : SameRun s t := by
  rcases exec_cases h with ⟨_, _, _, rfl⟩ | ⟨_, _, _, rfl⟩ | ⟨_, _, _, _, _, _, rfl⟩ | ⟨_, _, _, _, rfl⟩ |
    ⟨_, _, _, _, _, _, rfl⟩ | ⟨_, _, _, _, rfl⟩ | ⟨_, _, _, _, _, _, _, _, rfl⟩ <;> exact ⟨rfl, rfl, rfl⟩

/-- Only a `STOREU` writes memory: the first bytes of its window, all of them or those before the failing lane. -/
theorem mem_of_exec :
    t.mem = s.mem ∨ ∃ vs1 addr n, i = .storeu vs1 addr ∧ n ≤ 64 ∧ addr.toNat + 64 ≤ 2 ^ 64 ∧
      t.mem = s.mem.writeBytes addr.toNat (vecByte (s.readV vs1)) n := by
  rcases exec_cases h with ⟨_, _, _, rfl⟩ | ⟨_, _, _, rfl⟩ | ⟨vs1, addr, m, hi, hle, hm, rfl⟩ | ⟨_, _, _, _, rfl⟩ |
    ⟨_, _, _, _, _, _, rfl⟩ | ⟨_, _, _, _, rfl⟩ | ⟨vs1, addr, k, m, hi, hfit, _, hm, rfl⟩
  · exact .inl rfl
  · exact .inl rfl
  · exact .inr ⟨vs1, addr, 64, hi, le_rfl, hle, hm⟩
  · exact .inl rfl
  · exact .inl rfl
  · exact .inl rfl
  · exact .inr ⟨vs1, addr, 16 * k.val, hi, by omega, by omega, hm⟩

theorem wf_mem_of_exec (hs : s.mem.wf = true) : t.mem.wf = true := by
  rcases mem_of_exec h with hm | ⟨_, _, _, _, _, _, hm⟩ <;> rw [hm]
  · exact hs
  · exact (Memory.writeBytes_spec hs _ (by omega)).1

/-- A command completes, and then keeps the fault registers, or it is one of the two that enter an access fault. -/
theorem exec_completes_or_faults :
    (t.pc = s.pc + BitVec.ofNat 32 i.words ∧ SameFaultRegs s t) ∨
    (∃ vd addr, i = .loadu vd addr ∧ AccessFaultEntered s t 2 addr) ∨
      ∃ vs1 addr, i = .storeu vs1 addr ∧ AccessFaultEntered s t 3 addr := by
  rcases exec_cases h with ⟨_, _, _, rfl⟩ | ⟨_, _, _, rfl⟩ | ⟨_, _, _, _, _, _, rfl⟩ | ⟨vd, addr, hi, hpast, rfl⟩ |
    ⟨vd, addr, k, hi, hfit, hk, rfl⟩ | ⟨vs1, addr, hi, hpast, rfl⟩ | ⟨vs1, addr, k, m, hi, hfit, hk, -, rfl⟩
  · exact .inl ⟨rfl, rfl, rfl, rfl⟩
  · exact .inl ⟨rfl, rfl, rfl, rfl⟩
  · exact .inl ⟨rfl, rfl, rfl, rfl⟩
  · exact .inr (.inl ⟨vd, addr, hi, .inl ⟨hpast, faultEntered_raiseFault s s.mem .loadAccess _⟩⟩)
  · exact .inr (.inl ⟨vd, addr, hi, .inr ⟨k, hfit, hk, faultEntered_raiseFault s s.mem .loadAccess _⟩⟩)
  · exact .inr (.inr ⟨vs1, addr, hi, .inl ⟨hpast, faultEntered_raiseFault s s.mem .storeAccess _⟩⟩)
  · exact .inr (.inr ⟨vs1, addr, hi, .inr ⟨k, hfit, hk, faultEntered_raiseFault s m .storeAccess _⟩⟩)

end

/-- Whichever address is recorded, a fault is recorded at the command of `s`. -/
theorem AccessFaultEntered.entered {s t : State} {code : Nat} {addr : Addr} (h : AccessFaultEntered s t code addr) :
    ∃ a, FaultEntered s t code a := by
  rcases h with ⟨-, h⟩ | ⟨_, -, -, h⟩ <;> exact ⟨_, h⟩

/-- A command completes and keeps the fault registers, or enters a fault of cause 2 or 3 where it stands. -/
theorem exec_completes_or_enters {i : Instr} {s t : State} (h : exec i s = .next t) :
    (t.pc = s.pc + BitVec.ofNat 32 i.words ∧ SameFaultRegs s t) ∨ ∃ a, FaultEntered s t 2 a ∨ FaultEntered s t 3 a := by
  rcases exec_completes_or_faults h with h | ⟨_, _, -, hf⟩ | ⟨_, _, -, hf⟩
  · exact .inl h
  · exact .inr (hf.entered.imp fun _ => .inl)
  · exact .inr (hf.entered.imp fun _ => .inr)

end Sys2Proof.Machine
end

section
/-! PROOFS. The machine invariant: at reset, along every step, and under the moves of the outside world (R28, R30 to R32). -/

namespace Sys2Proof.Machine

/-- A running block has recorded no fault. -/
theorem StateInv.noFaultRecorded {s : State} (h : StateInv s) (hrun : s.faultIrq = false) : NoFaultRecorded s := by
  obtain ⟨-, -, -, hnone | ⟨hfstat, -⟩⟩ := h
  · exact hnone
  · rw [State.faultIrq] at hrun
    rcases hfstat with ⟨hf, -⟩ | hf | hf <;> rw [hf] at hrun <;> cases hrun

theorem StateInv.setMem {s : State} (h : StateInv s) {m : Memory} (hm : m.wf = true) : StateInv (s.setMem m) :=
  ⟨hm, h.2⟩

/-- Where the control registers are 0 and the stream is empty, only memory counts. -/
theorem stateInv_of_cleared {s : State} (hm : s.mem.wf = true) (hcmd : s.cmd = []) (hpc : s.pc = 0)
    (hf : NoFaultRecorded s) : StateInv s :=
  ⟨hm, by simp [hcmd], by simp [hpc], .inl hf⟩

theorem stateInv_resetEvent {s : State} (hm : s.mem.wf = true) : StateInv s.resetEvent :=
  stateInv_of_cleared hm rfl rfl ⟨rfl, rfl, rfl⟩

/-- A command that completes within the stream. -/
theorem StateInv.of_completed {s t : State} {n : Nat} (h : StateInv s) (hrun : s.faultIrq = false)
    (hm : t.mem.wf = true) (hr : SameRun s t) (hf : SameFaultRegs s t) (hpc : t.pc = s.pc + BitVec.ofNat 32 n)
    (hle : s.pc.toNat + n ≤ s.cmd.length) : StateInv t := by
  obtain ⟨h1, h2, h3⟩ := h.noFaultRecorded hrun
  obtain ⟨hfstat, hfpc, hfaddr⟩ := hf
  obtain ⟨-, hcmd, -⟩ := hr
  obtain ⟨-, hlen, -⟩ := h
  refine ⟨hm, hcmd ▸ hlen, ?_, .inl ⟨hfstat.trans h1, hfpc.trans h2, hfaddr.trans h3⟩⟩
  rw [hcmd, hpc, advance_toNat hlen hle]
  exact hle

/-- A command that enters a fault. -/
theorem StateInv.of_faultEntered {s t : State} {code : Nat} {a : Addr} (h : StateInv s) (hm : t.mem.wf = true)
    (hf : FaultEntered s t code a) (hcode : code = 1 ∧ a = 0 ∨ code = 2 ∨ code = 3) : StateInv t := by
  obtain ⟨hfstat, hfpc, hfaddr, -, hpc, -, -, -, hcmd, -⟩ := hf
  obtain ⟨-, hlen, hle, -⟩ := h
  refine ⟨hm, hcmd ▸ hlen, by rwa [hpc, hcmd], .inr ⟨?_, hfpc.trans hpc.symm⟩⟩
  rcases hcode with ⟨rfl, rfl⟩ | rfl | rfl
  · exact .inl ⟨hfstat, hfaddr⟩
  · exact .inr (.inl hfstat)
  · exact .inr (.inr hfstat)

/-- The executed command lies in the stream, so `pc` stays within it. -/
theorem StateInv.exec {s t : State} {i : Instr} {rest : List Word} (h : StateInv s) (hrun : s.faultIrq = false)
    (hpc : s.pc.toNat < s.cmd.length) (hd : decode s.fetch = .ok (i, rest)) (ht : exec i s = .next t) : StateInv t := by
  have hm := wf_mem_of_exec ht h.1
  rcases exec_completes_or_enters ht with ⟨hadv, hf⟩ | ⟨a, hf | hf⟩
  · exact h.of_completed hrun hm (sameRun_of_exec ht) hf hadv (fetch_length_le hd hpc)
  · exact h.of_faultEntered hm hf (.inr (.inl rfl))
  · exact h.of_faultEntered hm hf (.inr (.inr rfl))

theorem StateInv.deliver {s : State} (h : StateInv s) {ws : List Word} (hl : s.cmd.length + ws.length < 2 ^ 32) :
    StateInv (s.deliver ws) := by
  cases hrun : s.faultIrq with
  | true => rwa [State.deliver_halted hrun]
  | false =>
    rw [State.deliver_running hrun]
    obtain ⟨hm, -, hpc, hf⟩ := h
    have happend : (s.cmd ++ ws).length = s.cmd.length + ws.length := List.length_append
    exact ⟨hm, happend.trans_lt hl, hpc.trans (happend ▸ Nat.le_add_right _ _), hf⟩

theorem StateInv.otherAgentWrite {s : State} (h : StateInv s) (a : Nat) (b : Byte) : StateInv (s.otherAgentWrite a b) := by
  obtain ⟨m, heq, hm⟩ := State.otherAgentWrite_cases s a b
  exact heq ▸ h.setMem (hm h.1)

theorem StateInv.resetDuringStore {s : State} (h : StateInv s) (k : Nat) : StateInv (s.resetDuringStore k) := by
  obtain ⟨m, heq, hm⟩ := State.resetDuringStore_cases s k
  exact heq ▸ stateInv_resetEvent (hm h.1)

end Sys2Proof.Machine

/-! ### The obligations -/

open Sys2Proof Sys2Proof.Machine

/-- Settles O4: a step executes a command that lies in the stream, or enters the fault of an illegal word. -/
theorem stepKeepsInv : Obligations.StepKeepsInv := by
  intro s t h ht
  obtain ⟨-, hrun, hpc, ⟨i, rest, hd, hexec⟩ | ⟨w, -, -, rfl⟩⟩ := step_cases ht
  · exact h.exec hrun hpc hd hexec
  · exact h.of_faultEntered h.1 (faultEntered_raiseFault s s.mem .illegalCommand 0) (.inl ⟨rfl, rfl⟩)

/-- Settles O54: a delivery lengthens the stream only, and the other two moves keep memory canonical. -/
theorem outsideMovesKeepInv : Obligations.OutsideMovesKeepInv :=
  fun _ h => ⟨fun _ => h.deliver, h.otherAgentWrite, h.resetDuringStore⟩

/-- Settles O3: a reset keeps memory and clears the rest. -/
theorem resetEventKeepsInv : Obligations.ResetEventKeepsInv := fun _ h => stateInv_resetEvent h.1

/-- Settles O2: the control registers are 0, the stream and memory empty. -/
theorem resetStateSatisfiesInv : Obligations.ResetStateSatisfiesInv :=
  stateInv_of_cleared Memory.wf_nil rfl rfl ⟨rfl, rfl, rfl⟩

/-- Settles O55, by induction on the run: the invariant holds at its start and every move keeps it. -/
theorem reachableStatesSatisfyInv : Obligations.ReachableStatesSatisfyInv := by
  intro s h
  induction h with
  | start m holes hm => exact stateInv_of_cleared hm rfl rfl ⟨rfl, rfl, rfl⟩
  | step s t _ ht ih => exact stepKeepsInv s t ih ht
  | deliver s ws _ hl ih => exact ih.deliver hl
  | otherAgentWrite s a b _ ih => exact ih.otherAgentWrite a b
  | reset s _ ih => exact stateInv_resetEvent ih.1
  | resetDuring s k _ ih => exact ih.resetDuringStore k
end

section
/-! PROOFS. Encoding and decoding undo each other (R81, R82, R85). -/

namespace Sys2Proof.Machine

/-! ### The operands that the fields of an assembled word name (R81, R83) -/

section
variable {op rd rs1 rs2 imm : Nat} (hop : op < 16) (hrd : rd < 16) (h1 : rs1 < 16) (h2 : rs2 < 16) (hi : imm < 65536)
include hop hrd h1 h2 hi

theorem rdField_commandWord_ofNat : rdField (commandWord op rd rs1 rs2 imm) = BitVec.ofNat 4 rd :=
  BitVec.eq_of_toNat_eq (by rw [rdField_commandWord hop hrd h1 h2 hi, BitVec.toNat_ofNat, Nat.mod_eq_of_lt hrd])

theorem rs1Field_commandWord_ofNat : rs1Field (commandWord op rd rs1 rs2 imm) = BitVec.ofNat 4 rs1 :=
  BitVec.eq_of_toNat_eq (by rw [rs1Field_commandWord hop hrd h1 h2 hi, BitVec.toNat_ofNat, Nat.mod_eq_of_lt h1])

theorem rs2Field_commandWord_ofNat : rs2Field (commandWord op rd rs1 rs2 imm) = BitVec.ofNat 4 rs2 :=
  BitVec.eq_of_toNat_eq (by rw [rs2Field_commandWord hop hrd h1 h2 hi, BitVec.toNat_ofNat, Nat.mod_eq_of_lt h2])

theorem immField_commandWord_ofNat : immField (commandWord op rd rs1 rs2 imm) = BitVec.ofNat 16 imm :=
  BitVec.eq_of_toNat_eq (by rw [immField_commandWord hop hrd h1 h2 hi, BitVec.toNat_ofNat, Nat.mod_eq_of_lt hi])

end

theorem regOf_ofFin (r : Fin 16) : regOf (BitVec.ofFin r) = r := rfl

/-! ### Decoding what was encoded -/

/-- A well-formed command decodes from its words: the field of an operand holds it, and every other field is zero. -/
theorem decode_encode_append {i : Instr} (hi : i.WellFormed) (rest : List Word) :
    decode (encode i ++ rest) = .ok (i, rest) := by
  cases i with
  | setr vd e =>
    obtain ⟨hop, hrd, hlegal⟩ := commandWord_setr_loadu (.inl rfl) vd
    exact (decode_setr hop hlegal ((Instr.wellFormed_setr vd e).1 hi) rest).trans (by rw [hrd])
  | loadu vd addr =>
    obtain ⟨hop, hrd, hlegal⟩ := commandWord_setr_loadu (.inr rfl) vd
    exact (decode_loadu hop hlegal _ _ rest).trans (by rw [hrd, addrOfWords_wordsOfAddr])
  | storeu vs1 addr =>
    obtain ⟨hop, hrs1, hlegal⟩ := commandWord_storeu vs1
    exact (decode_storeu hop hlegal _ _ rest).trans (by rw [hrs1, addrOfWords_wordsOfAddr])
  | vxor | vor | vand | aesrnd | shuf | extr | bcast | ins | mbcast | sll | srl =>
    simp (disch := omega) [encode, decode, opReserved, reservedFieldsZero, decodeLegal, opField_commandWord,
      rdField_commandWord_ofNat, rs1Field_commandWord_ofNat, rs2Field_commandWord_ofNat, immField_commandWord_ofNat,
      regOf_ofFin]

/-! ### Encoding what was decoded -/

/-- The words of what decodes are those it was decoded from: the fields that a legal word does not use are zero. -/
theorem encode_append_of_decode {ws rest : List Word} {i : Instr} (h : decode ws = .ok (i, rest)) :
    i.WellFormed ∧ encode i ++ rest = ws := by
  obtain ⟨w, t, rfl, -, hlegal, hd⟩ := decode_ok h
  have hw := commandWord_fields w
  have hlt := (opField w).isLt
  unfold decodeLegal at hd
  unfold reservedFieldsZero at hlegal
  generalize (opField w).toNat = o at hw hd hlegal hlt
  interval_cases o <;>
    simp only [Except.ok.injEq, Prod.mk.injEq, reduceCtorEq, Bool.and_eq_true, beq_iff_eq] at hd hlegal
  · obtain ⟨e, he, rfl, rfl⟩ := takeElems_ok hd
    exact ⟨(Instr.wellFormed_setr _ e).2 he, by simp_all [encode, regOf_val]⟩
  · obtain ⟨lo, hi, rfl, rfl⟩ := takeAddr_ok hd
    exact ⟨rfl, by simp_all [encode, regOf_val, wordsOfAddr_addrOfWords]⟩
  · obtain ⟨lo, hi, rfl, rfl⟩ := takeAddr_ok hd
    exact ⟨rfl, by simp_all [encode, regOf_val, wordsOfAddr_addrOfWords]⟩
  all_goals
    obtain ⟨rfl, rfl⟩ := hd
    exact ⟨rfl, by simp_all [encode, regOf_val]⟩

end Sys2Proof.Machine

/-! ### The obligations -/

open Sys2Proof Sys2Proof.Machine

/-- Settles O5: the fields of an assembled word are its operands, and the payload is taken back whole. -/
theorem decodeEncodeRoundTrip : Obligations.DecodeEncodeRoundTrip := fun _ rest hi => decode_encode_append hi rest

/-- Settles O6: a legal word is put together again from the fields that its command keeps. -/
theorem encodeDecodeRoundTrip : Obligations.EncodeDecodeRoundTrip := fun _ _ _ h => encode_append_of_decode h

/-- Settles O8: each word is fixed, so the decoder computes. -/
theorem knownWordsDecode : Obligations.KnownWordsDecode := by
  unfold Obligations.KnownWordsDecode
  decide
end

section
/-! PROOFS. The sequencer, the status port and the reset: where a step goes, where there is none, and what the host sees
(R26 to R33, R94, R97, R225, R227, R232). -/

namespace Sys2Proof.Machine

section
variable {s : State}

/-! ### The outputs (R225, R232) -/

theorem faultIrq_iff : s.faultIrq = true ↔ s.fstat.toNat % 2 = 1 := by
  simp [State.faultIrq, fstatFault, BitVec.getLsbD, Nat.testBit_zero]

theorem idle_iff : s.idle = true ↔ s.pc.toNat = s.cmd.length ∧ s.faultIrq = false := by
  simp [State.idle, State.faultIrq]

/-- A cleared `FSTAT` records no fault. -/
theorem faultIrq_of_fstat_zero (h : s.fstat = 0) : s.faultIrq = false := by
  rw [State.faultIrq, h]
  decide

theorem statusRead_eq_none {n : Nat} (h : 3 < n) : s.statusRead n = none := by
  match n, h with
  | n + 4, _ => rfl

/-! ### Where the block takes no step (R94) -/

theorem step_long_stream (h : 2 ^ 32 ≤ s.cmd.length) : step s = .refused .streamTooLong := by
  rw [step, sequencerStep, if_pos h]

theorem step_halted (hlen : s.cmd.length < 2 ^ 32) (h : s.faultIrq = true) : step s = .fault .halted := by
  rw [step, sequencerStep, if_neg (by omega), if_pos h]

theorem step_idle (hlen : s.cmd.length < 2 ^ 32) (h : s.idle = true) : step s = .fault .endOfRun := by
  obtain ⟨hpc, hrun⟩ := idle_iff.1 h
  rw [step, sequencerStep, if_neg (by omega), if_neg (by simp [hrun]), if_pos hpc]

/-- Every other way a step can go has another name. -/
theorem idle_of_step (h : step s = .fault .endOfRun) (hlen : s.cmd.length < 2 ^ 32) : s.idle = true := by
  by_contra hidle
  cases hrun : s.faultIrq with
  | true =>
    rw [step_halted hlen hrun] at h
    cases h
  | false =>
    rw [sequencerStep_running hlen hrun fun hpc => hidle (idle_iff.2 ⟨hpc, hrun⟩)] at h
    split at h
    · exact exec_ne_fault _ _ _ h
    all_goals cases h

/-- The first word delivered to an idle block stands at `pc`. -/
theorem atCommand_deliver_of_idle (h : s.idle = true) {w : Word} {ws : List Word}
    (hl : s.cmd.length + (w :: ws).length < 2 ^ 32) : AtCommand (s.deliver (w :: ws)) w := by
  obtain ⟨hpc, hrun⟩ := idle_iff.1 h
  rw [State.deliver_running hrun]
  exact ⟨by rwa [List.length_append], hrun, by simp [hpc]⟩

end

/-! ### The advance of a step (R27, R28) -/

theorem faultIrq_of_sameFaultRegs {s t : State} (h : SameFaultRegs s t) : t.faultIrq = s.faultIrq :=
  State.faultIrq_congr h.1

theorem FaultEntered.irq {s t : State} {code : Nat} {a : Addr} (h : FaultEntered s t code a) : t.faultIrq = true := by
  obtain ⟨-, -, -, hirq, -⟩ := h
  exact hirq

theorem FaultEntered.pc {s t : State} {code : Nat} {a : Addr} (h : FaultEntered s t code a) : t.pc = s.pc := by
  obtain ⟨-, -, -, -, hpc, -⟩ := h
  exact hpc

/-- A step faults where it stands, or completes the command that the words at `pc` decode to. -/
theorem step_faults_or_completes {s t : State} (h : step s = .next t) :
    (t.faultIrq = true ∧ t.pc = s.pc) ∨
      (t.faultIrq = false ∧ ∃ i rest, decode s.fetch = .ok (i, rest) ∧ t.pc.toNat = s.pc.toNat + i.words ∧
        t.pc.toNat ≤ s.cmd.length) := by
  obtain ⟨hlen, hrun, hpc, ⟨i, rest, hd, hexec⟩ | ⟨w, -, -, rfl⟩⟩ := step_cases h
  · rcases exec_completes_or_enters hexec with ⟨hadv, hf⟩ | ⟨a, hf | hf⟩
    · have hle := fetch_length_le hd hpc
      have hnat := hadv ▸ advance_toNat hlen hle
      exact .inr ⟨(faultIrq_of_sameFaultRegs hf).trans hrun, i, rest, hd, hnat, hnat ▸ hle⟩
    · exact .inl ⟨hf.irq, hf.pc⟩
    · exact .inl ⟨hf.irq, hf.pc⟩
  · exact .inl ⟨State.faultIrq_raiseFault s _ _, rfl⟩

end Sys2Proof.Machine

/-! ### The obligations -/

open Sys2Proof Sys2Proof.Machine

/-- Settles O15: a step that faults keeps `pc`, and one that does not is the completion of a command within the stream. -/
theorem stepAdvancesByLength : Obligations.StepAdvancesByLength := by
  intro s t h
  rcases step_faults_or_completes h with ⟨hf, hpc⟩ | ⟨hf, hdone⟩
  · exact ⟨fun _ => hpc, fun hn => absurd (hf.symm.trans hn) (by decide)⟩
  · exact ⟨fun hn => absurd (hf.symm.trans hn) (by decide), fun _ => hdone⟩

/-- Settles O17: no other stop has the name `endOfRun`, and the delivered words are appended where `pc` stands. -/
theorem endOfRun : Obligations.EndOfRun := fun _ hlen =>
  ⟨⟨fun h => idle_of_step h hlen, step_idle hlen⟩, idle_iff, fun _ _ h hl => atCommand_deliver_of_idle h hl⟩

/-- Settles O14: words that decode are left in the stream, so none of the stops comes first. -/
theorem stepRunsDecodedCommand : Obligations.StepRunsDecodedCommand := fun _ _ _ => step_eq_exec_of_decode

/-- Settles O18: the fault status stops the sequencer and the command port, and a reset clears it. -/
theorem haltedUntilReset : Obligations.HaltedUntilReset := fun _ hlen h =>
  ⟨step_halted hlen h, State.deliver_halted h, faultIrq_of_fstat_zero rfl, rfl, rfl⟩

/-- Settles O19: the length of the stream is checked first. -/
theorem longStreamRefused : Obligations.LongStreamRefused := fun _ => step_long_stream

/-- Settles O51: the four indices read their registers, and the outputs are bit 0 of `FSTAT` and `pc = N`. -/
theorem statusPort : Obligations.StatusPort := fun s =>
  ⟨⟨rfl, rfl, rfl, rfl, fun _ => statusRead_eq_none⟩, faultIrq_iff, by
    rw [idle_iff, ← Bool.not_eq_true, faultIrq_iff]
    exact and_congr_right fun _ => Nat.mod_two_ne_one⟩

/-- Settles O1: both resets set the control registers and the stream; the reset event does not touch memory. -/
theorem resetClearsControlState : Obligations.ResetClearsControlState :=
  ⟨⟨rfl, rfl, rfl, rfl, rfl, idle_iff.2 ⟨rfl, faultIrq_of_fstat_zero rfl⟩, faultIrq_of_fstat_zero rfl⟩, fun _ =>
    ⟨rfl, rfl, rfl, rfl, rfl, idle_iff.2 ⟨rfl, faultIrq_of_fstat_zero rfl⟩, faultIrq_of_fstat_zero rfl, fun _ => rfl, rfl⟩⟩

/-- Settles O53: the one check of `SETR` fails. -/
theorem illFormedSetrRefused : Obligations.IllFormedSetrRefused := fun _ _ _ h => if_neg h
end

section
/-! PROOFS. The laws of `VXOR`, `VOR`, `VAND` over two commands (42_bitwise.md, Laws). -/

namespace Sys2Proof.Machine

/-! ### A lane function over two commands -/

section
variable {f : Lane → Lane → Lane}

theorem vecZip_comm (hf : ∀ a b, f a b = f b a) (u w : WideVector) : vecZip f u w = vecZip f w u :=
  vec_ext_lanes fun k => by rw [vecLane_vecZip, vecLane_vecZip, hf]

theorem vecZip_assoc (hf : ∀ a b c, f (f a b) c = f a (f b c)) (u v w : WideVector) :
    vecZip f (vecZip f u v) w = vecZip f u (vecZip f v w) :=
  vec_ext_lanes fun k => by simp only [vecLane_vecZip, hf]

theorem vvv_comm (hf : ∀ a b, f a b = f b a) (vd a b : VReg) (s : State) :
    vvv (vecZip f) vd a b s = vvv (vecZip f) vd b a s := by
  rw [vvv, vecZip_comm hf, vvv]

theorem readV_vvv_other (g : WideVector → WideVector → WideVector) {vd q : VReg} (hq : q ≠ vd) (a b : VReg) (s : State) :
    (vvv g vd a b s).readV q = s.readV q := by
  rw [vvv, State.readV_advance, State.readV_writeV_other s _ hq]

/-- The temporary holds the inner result while the third operand is still that of before. -/
theorem readV_vvv_assoc (hf : ∀ a b c, f (f a b) c = f a (f b c)) (vd : VReg) {vt a c : VReg} (b : VReg) (ha : vt ≠ a)
    (hc : vt ≠ c) (s : State) :
    (vvv (vecZip f) vd vt c (vvv (vecZip f) vt a b s)).readV vd =
      (vvv (vecZip f) vd a vt (vvv (vecZip f) vt b c s)).readV vd := by
  simp only [readV_vvv, readV_vvv_other _ ha.symm, readV_vvv_other _ hc.symm, vecZip_assoc hf]

end

end Sys2Proof.Machine

/-! ### The obligation -/

open Sys2Proof Sys2Proof.Machine

/-- Settles O30: the lane functions of the three commands are commutative and associative. -/
theorem bitwiseCommandsCommuteAndAssociate : Obligations.BitwiseCommandsCommuteAndAssociate := by
  refine ⟨fun vd a b s => ⟨congrArg _ (vvv_comm BitVec.xor_comm vd a b s), congrArg _ (vvv_comm BitVec.or_comm vd a b s),
    congrArg _ (vvv_comm BitVec.and_comm vd a b s)⟩, fun mk hmk vd vt a b c s ha hc => ?_⟩
  simp only [List.mem_cons, List.not_mem_nil, or_false] at hmk
  rcases hmk with rfl | rfl | rfl
  · exact ⟨_, _, _, _, rfl, rfl, rfl, rfl, readV_vvv_assoc BitVec.xor_assoc vd b ha hc s⟩
  · exact ⟨_, _, _, _, rfl, rfl, rfl, rfl, readV_vvv_assoc BitVec.or_assoc vd b ha hc s⟩
  · exact ⟨_, _, _, _, rfl, rfl, rfl, rfl, readV_vvv_assoc BitVec.and_assoc vd b ha hc s⟩
end

section
/-! PROOFS. The family of 43_aes.md: `AESRND`, its round byte by byte, and the substitution table (R160 to R166). -/

namespace Sys2Proof.Machine

/-! ### The round, byte by byte (R162 to R166) -/

theorem laneByte_shiftRows_subBytes (l : Lane) {i : Nat} (hi : i < 16) :
    laneByte (shiftRows (subBytes l)) i = sbox (laneByte l (shiftRowsSource i)) := by
  rw [laneByte_shiftRows _ hi, laneByte_subBytes _ (shiftRowsSource_lt i)]

theorem shiftRows_subBytes_comm (l : Lane) : shiftRows (subBytes l) = subBytes (shiftRows l) :=
  lane_ext_bytes fun i hi => by rw [laneByte_shiftRows_subBytes l hi, laneByte_subBytes _ hi, laneByte_shiftRows _ hi]

/-- The byte that ShiftRows brings to row `r` of column `c` (R163). -/
theorem shiftRowsSource_row {r : Nat} (hr : r < 4) (c : Nat) :
    shiftRowsSource (4 * c + r) = r + 4 * ((c + r) % 4) := by
  unfold shiftRowsSource
  omega

/-- Row `r` of column `c` after a round: the row of the matrix applied to the four substituted bytes, and the key byte. -/
theorem laneByte_aesRound (l key : Lane) {r c : Nat} (hr : r < 4) (hc : c < 4) :
    laneByte (aesRound l key) (4 * c + r) =
      mixRow r (sbox (laneByte l (4 * c))) (sbox (laneByte l (1 + 4 * ((c + 1) % 4))))
        (sbox (laneByte l (2 + 4 * ((c + 2) % 4)))) (sbox (laneByte l (3 + 4 * ((c + 3) % 4)))) ^^^
      laneByte key (4 * c + r) := by
  have hcol : ∀ q, q < 4 → laneByte (shiftRows (subBytes l)) (4 * c + q) = sbox (laneByte l (q + 4 * ((c + q) % 4))) :=
    fun q hq => by rw [laneByte_shiftRows_subBytes l (by omega), shiftRowsSource_row hq]
  have h0 : laneByte (shiftRows (subBytes l)) (4 * c) = sbox (laneByte l (4 * c)) := by
    simpa [Nat.mod_eq_of_lt hc] using hcol 0 (by decide)
  rw [aesRound, addRoundKey, laneByte_xor, laneByte_mixColumns _ (by omega), Nat.mul_add_mod, Nat.mod_eq_of_lt hr,
    show (4 * c + r) / 4 = c by omega, h0, hcol 1 (by decide), hcol 2 (by decide), hcol 3 (by decide)]

/-! ### The substitution table (R162, R164) -/

/-- The inverse of the affine map of the table. -/
def sboxAffineInverse (y : Byte) : Byte := y.rotateLeft 1 ^^^ y.rotateLeft 3 ^^^ y.rotateLeft 6 ^^^ 0x05

theorem sboxAffine_sboxAffineInverse : ∀ y, sboxAffine (sboxAffineInverse y) = y := by decide

/-- What the affine map takes to the table entry of `b`. -/
def sboxInverse (b : Byte) : Byte := sboxAffineInverse (sbox b)

theorem sboxInverse_zero : sboxInverse 0 = 0 := by decide

/-- It is the inverse of `b` in the field, for each of the 255 bytes that have one. -/
theorem gfMul_sboxInverse : ∀ b, b ≠ 0 → gfMul b (sboxInverse b) = 1 := by decide

end Sys2Proof.Machine

/-! ### The obligations -/

open Sys2Proof Sys2Proof.Machine

/-- Settles O31: `AESRND` is a `VVV` command whose lane function is the round. -/
theorem aesrndAppliesRoundPerLane : Obligations.AesrndAppliesRoundPerLane :=
  ⟨fun vd vs1 vs2 => congrArg ([·]) (commandWord_vvv 7 vd vs1 vs2),
    fun _ hop himm => faultsIllegal_vvv (by omega) himm,
    fun vd vs1 vs2 s => ⟨_, rfl, onlyV_vvv _ vd vs1 vs2 s, vecLane_vvv _ vd vs1 vs2 s⟩⟩

/-- Settles O32: the four rows of a column, each with its row of the matrix. -/
theorem aesRoundByBytes : Obligations.AesRoundByBytes := by
  rintro l key c hc _ _ _ _ rfl rfl rfl rfl
  exact ⟨laneByte_aesRound l key (r := 0) (by decide) hc, laneByte_aesRound l key (r := 1) (by decide) hc,
    laneByte_aesRound l key (r := 2) (by decide) hc, laneByte_aesRound l key (r := 3) (by decide) hc⟩

/-- Settles O33: one step is the same for every byte, the other only moves bytes. -/
theorem subBytesShiftRowsCommute : Obligations.SubBytesShiftRowsCommute := shiftRows_subBytes_comm

/-- Settles O34: the affine map can be undone, and undone on the table it gives the field inverse. -/
theorem sboxIsAffineOfInverse : Obligations.SboxIsAffineOfInverse :=
  ⟨sboxInverse, sboxInverse_zero, gfMul_sboxInverse, fun b => (sboxAffine_sboxAffineInverse (sbox b)).symm⟩
end

section
/-! PROOFS. The laws of the lane multiplexer, and the pseudo-instructions (44_lane.md, Laws; 30_encoding.md section 5). -/

namespace Sys2Proof.Machine

theorem laneSelector_zero_val (imm : Imm) : (laneSelector imm 0).val = imm.toNat % 4 := eq_laneSelector_zero_iff.1 rfl

end Sys2Proof.Machine

/-! ### The obligations -/

open Sys2Proof Sys2Proof.Machine

/-- Settles O39: the rule of `EXTR` after that of `BCAST`, and after that of `INS`. -/
theorem laneMultiplexerLaws : Obligations.LaneMultiplexerLaws := by
  obtain ⟨-, -, extr⟩ := extrRule
  obtain ⟨-, -, bcast⟩ := bcastRule
  obtain ⟨-, -, ins⟩ := insRule
  refine ⟨fun va xs xt i s => ?_, fun va vb xs xt i j s => ?_⟩
  · obtain ⟨t, ht, -, hlane⟩ := bcast va xs s
    obtain ⟨u, hu, -, hread⟩ := extr xt va i t
    exact ⟨t, u, ht, hu, (hread _ (laneSelector_zero_val i)).trans (hlane _)⟩
  · obtain ⟨t, ht, -, hlane⟩ := ins va vb xs i s
    obtain ⟨u, hu, -, hread⟩ := extr xt va j t
    refine ⟨t, u, ht, hu, fun hsame => ?_, fun k hk hne => ?_⟩
    · rw [hread _ (laneSelector_zero_val j), hlane, if_pos ((laneSelector_zero_val j).trans hsame)]
    · rw [hread k hk, hlane, if_neg (hk ▸ hne)]

/-- Settles O43: `VOR` with equal sources copies, and `SETR` of zero elements writes zero bytes. -/
theorem pseudoInstructions : Obligations.PseudoInstructions := by
  obtain ⟨-, -, vor⟩ := vorRule
  obtain ⟨-, -, -, setr⟩ := setrRule
  refine ⟨fun vd vs s => ⟨rfl, ?_⟩, fun vd s => ⟨rfl, ?_⟩⟩
  · obtain ⟨t, ht, hframe, -, hcopy⟩ := vor vd vs vs s
    exact ⟨t, ht, hframe, hcopy rfl⟩
  · obtain ⟨t, ht, hframe, -, hbyte⟩ := setr vd (List.replicate 16 0) s List.length_replicate
    refine ⟨t, ht, hframe, fun j hj => ?_⟩
    have hzero := hbyte (j / 4) (j % 4) 0#32 (by omega) (by omega) (List.getElem?_replicate_of_lt (by omega))
    rwa [Nat.div_add_mod, BitVec.extractLsb'_zero] at hzero
end

section
/-! PROOFS. Two commands in program order, over registers and memory (20_memory.md section 6; the laws of 40_construct.md and
41_loadstore.md). -/

namespace Sys2Proof.Machine

/-- No command changes which windows are valid. -/
theorem WindowValid.of_exec {i : Instr} {s t : State} {a : Nat} (ht : exec i s = .next t) (h : WindowValid s a) :
    WindowValid t a := by
  obtain ⟨hholes, -, -⟩ := sameRun_of_exec ht
  intro j hj
  rw [State.memValid, hholes]
  exact h j hj

/-- A store after another command: both complete, and the bytes of the window are those of the register. -/
theorem exec_storeu_after {i : Instr} {s t : State} (ht : exec i s = .next t) (hm : s.mem.wf = true) {addr : Addr}
    (h : WindowValid s addr.toNat) (vs1 : VReg) :
    ∃ u, exec (.storeu vs1 addr) t = .next u ∧ Stored t u (t.readV vs1) addr.toNat 64 := by
  obtain ⟨u, hu, -, hstored⟩ := exec_storeu_completes (h.of_exec ht) (wf_mem_of_exec ht hm) vs1
  exact ⟨u, hu, hstored⟩

end Sys2Proof.Machine

/-! ### The obligations -/

open Sys2Proof Sys2Proof.Machine

/-- Settles O44: the bytes stored are those of the vector that `SETR` makes. -/
theorem setrThenStore : Obligations.SetrThenStore := by
  intro vd e addr s hm he hvalid
  obtain ⟨-, -, -, setr⟩ := setrRule
  obtain ⟨t, ht, -, -, hbyte⟩ := setr vd e s he
  obtain ⟨u, hu, hstored⟩ := exec_storeu_after ht hm hvalid vd
  refine ⟨t, u, ht, hu, fun i j x hi hj hx => ?_⟩
  rw [hstored, if_pos (by omega), ← hbyte i j x hi hj hx]
  congr 1
  omega

/-- Settles O45: the load has read all 64 bytes before the store writes the first. -/
theorem storeOfLoad : Obligations.StoreOfLoad := by
  intro vd a b s hm ha hb
  obtain ⟨t, ht, ⟨-, -, -, hmem, -⟩, hbytes⟩ := exec_loadu_completes ha vd
  obtain ⟨u, hu, hstored⟩ := exec_storeu_after ht hm hb vd
  refine ⟨t, u, ht, hu, fun x => (hstored x).trans ?_⟩
  split
  · exact hbytes _ (by omega)
  · exact hmem x

/-- Settles O46: the second command reads or overwrites the memory that the first store leaves. -/
theorem programOrderOfMemory : Obligations.ProgramOrderOfMemory := by
  refine ⟨fun vs vd a b s hm ha hb => ?_, fun v1 v2 a b s hm ha hb => ?_⟩
  · obtain ⟨t, ht, -, hstored⟩ := exec_storeu_completes ha hm vs
    obtain ⟨u, hu, -, hbytes⟩ := exec_loadu_completes (hb.of_exec ht) vd
    exact ⟨t, u, ht, hu, fun j hj => (hbytes j hj).trans (hstored _)⟩
  · obtain ⟨t, ht, ⟨-, hsameV, -⟩, hstored⟩ := exec_storeu_completes ha hm v1
    obtain ⟨u, hu, hstored'⟩ := exec_storeu_after ht hm hb v2
    refine ⟨t, u, ht, hu, fun x => ?_⟩
    rw [hstored', hsameV, hstored]
end

section
/-! PROOFS. What every command keeps: the registers it does not name, memory outside the window of a store, and its
independence of all but its operands (R14, R22, R23, R29, R56). -/

namespace Sys2Proof.Machine

/-! ### States with the same operands (R14, R29) -/

section
variable {s s' : State} (h : SameOperands s s')
include h

theorem SameOperands.portDone (la : Nat) : s'.portDone la = s.portDone la := by
  obtain ⟨-, -, -, hholes, -⟩ := h
  simp only [State.portDone, State.memValid, hholes]

theorem SameOperands.setMem (m : Memory) : SameOperands (s.setMem m) (s'.setMem m) := by
  obtain ⟨hv, hx, -, hholes, hpc⟩ := h
  exact ⟨hv, hx, rfl, hholes, hpc⟩

theorem SameOperands.writeV (r : VReg) (w : WideVector) : SameOperands (s.writeV r w) (s'.writeV r w) := by
  obtain ⟨hv, hx, hm, hholes, hpc⟩ := h
  exact ⟨congrArg (·.set r.val w) hv, hx, hm, hholes, hpc⟩

theorem SameOperands.writeX (r : XReg) (l : Lane) : SameOperands (s.writeX r l) (s'.writeX r l) := by
  obtain ⟨hv, hx, hm, hholes, hpc⟩ := h
  exact ⟨hv, congrArg (·.set r.val l) hx, hm, hholes, hpc⟩

theorem SameOperands.advance (n : Nat) : SameOperands (s.advance n) (s'.advance n) := by
  obtain ⟨hv, hx, hm, hholes, hpc⟩ := h
  exact ⟨hv, hx, hm, hholes, congrArg (· + BitVec.ofNat 32 n) hpc⟩

theorem SameOperands.raiseFault (c : Cause) (a : Addr) : SameOperands (s.raiseFault c a) (s'.raiseFault c a) := h

theorem SameOperands.readV (r : VReg) : s'.readV r = s.readV r := by
  obtain ⟨hv, -⟩ := h
  rw [State.readV, State.readV, hv]

theorem SameOperands.readX (r : XReg) : s'.readX r = s.readX r := by
  obtain ⟨-, hx, -⟩ := h
  rw [State.readX, State.readX, hx]

theorem SameOperands.mem_eq : s'.mem = s.mem := by
  obtain ⟨-, -, hm, -⟩ := h
  exact hm

theorem SameOperands.memRead16 (la : Nat) : s'.memRead16 la = s.memRead16 la := by
  simp only [State.memRead16, h.portDone, State.readByte, h.mem_eq]

theorem SameOperands.loadWindow_eq (addr : Nat) : loadWindow s' addr = loadWindow s addr := by
  simp only [loadWindow, h.memRead16]

/-- The lane writes of a store stop at the same lane and leave the same memory. -/
theorem SameOperands.storeLanes_same (w : WideVector) (addr : Nat) (ks : List (Fin 4)) :
    SameOperands (storeLanes w addr ks s).1 (storeLanes w addr ks s').1 ∧
      (storeLanes w addr ks s').2 = (storeLanes w addr ks s).2 := by
  induction ks generalizing s s' with
  | nil => exact ⟨h, rfl⟩
  | cons k ks ih =>
    rw [storeLanes, storeLanes]
    cases hd : s.portDone (laneAddr addr k) with
    | true =>
      rw [State.memWrite16_done hd, State.memWrite16_done ((h.portDone _).trans hd), h.mem_eq]
      exact ih (h.setMem _)
    | false =>
      rw [State.memWrite16_error hd, State.memWrite16_error ((h.portDone _).trans hd)]
      exact ⟨h, rfl⟩

/-- A command answers alike from two states with the same operands. -/
theorem SameOperands.exec_same {i : Instr} {t : State} (ht : exec i s = .next t) :
    ∃ t', exec i s' = .next t' ∧ SameOperands t t' := by
  cases i with
  | setr vd e =>
    rw [exec, execSetr] at ht ⊢
    split at ht
    · next he =>
      obtain rfl := next_inj ht
      exact ⟨_, if_pos he, (h.writeV vd _).advance 17⟩
    · cases ht
  | loadu vd addr =>
    rw [exec, execLoadu] at ht ⊢
    rw [h.loadWindow_eq]
    by_cases hfit : windowFits addr = true
    · rw [if_pos hfit] at ht ⊢
      cases hw : loadWindow s addr.toNat <;> rw [hw] at ht <;> obtain rfl := next_inj ht
      · exact ⟨_, rfl, h.raiseFault .loadAccess _⟩
      · exact ⟨_, rfl, (h.writeV vd _).advance 3⟩
    · rw [if_neg hfit] at ht ⊢
      obtain rfl := next_inj ht
      exact ⟨_, rfl, h.raiseFault .loadAccess addr⟩
  | storeu vs1 addr =>
    rw [exec, execStoreu] at ht ⊢
    rw [h.readV]
    by_cases hfit : windowFits addr = true
    · rw [if_pos hfit] at ht ⊢
      obtain ⟨hsame, hstop⟩ := h.storeLanes_same (s.readV vs1) addr.toNat laneOrder
      generalize storeLanes (s.readV vs1) addr.toNat laneOrder s = r at ht hsame hstop
      generalize storeLanes (s.readV vs1) addr.toNat laneOrder s' = r' at hsame hstop ⊢
      obtain ⟨u, stop⟩ := r
      obtain ⟨u', stop'⟩ := r'
      obtain rfl : stop' = stop := hstop
      cases stop' <;> obtain rfl := next_inj ht
      · exact ⟨_, rfl, hsame.advance 3⟩
      · exact ⟨_, rfl, hsame.raiseFault .storeAccess _⟩
    · rw [if_neg hfit] at ht ⊢
      obtain rfl := next_inj ht
      exact ⟨_, rfl, h.raiseFault .storeAccess addr⟩
  | extr xd =>
    obtain rfl := next_inj ht
    simp only [exec, execExtr, h.readV]
    exact ⟨_, rfl, (h.writeX xd _).advance 1⟩
  | vxor vd | vor vd | vand vd | aesrnd vd | shuf vd | bcast vd | ins vd | mbcast vd | sll vd | srl vd =>
    obtain rfl := next_inj ht
    simp only [exec, execVxor, execVor, execVand, execAesrnd, vvv, execShuf, execBcast, execIns, execMbcast,
      execSll, execSrl, h.readV, h.readX]
    exact ⟨_, rfl, (h.writeV vd _).advance 1⟩

end

/-- A command that moves `pc` has completed, and has not touched the fault registers. -/
theorem sameFaultRegs_of_pc_ne {i : Instr} {s t : State} (ht : exec i s = .next t) (hpc : t.pc ≠ s.pc) :
    SameFaultRegs s t := by
  rcases exec_completes_or_enters ht with ⟨-, hf⟩ | ⟨_, hf | hf⟩
  · exact hf
  · exact absurd hf.pc hpc
  · exact absurd hf.pc hpc

end Sys2Proof.Machine

/-! ### The obligations -/

open Sys2Proof Sys2Proof.Machine

/-- Settles O47: of the ways a command can end, only two write a register, the one that it names. -/
theorem onlyDestinationRegisterChanges : Obligations.OnlyDestinationRegisterChanges := by
  intro i s t h
  rcases exec_cases h with ⟨vd, w, hd, rfl⟩ | ⟨xd, l, hd, rfl⟩ | ⟨_, _, _, _, _, _, rfl⟩ | ⟨_, _, _, _, rfl⟩ |
    ⟨_, _, _, _, _, _, rfl⟩ | ⟨_, _, _, _, rfl⟩ | ⟨_, _, _, _, _, _, _, _, rfl⟩
  · exact ⟨fun q hq => State.readV_writeV_other s w fun he => hq (he ▸ hd), fun _ _ => rfl⟩
  · exact ⟨fun _ _ => rfl, fun q hq => State.readX_writeX_other s l fun he => hq (he ▸ hd)⟩
  all_goals exact ⟨fun _ _ => rfl, fun _ _ => rfl⟩

/-- Settles O48: a store changes the bytes that it writes, and they lie in its window. -/
theorem onlyStoreWindowChanges : Obligations.OnlyStoreWindowChanges := by
  intro i s t a hm h hne
  rcases mem_of_exec h with hsame | ⟨vs1, addr, n, hi, hn, hle, hmem⟩
  · exact absurd (congrArg (·.read a) hsame) hne
  · refine ⟨vs1, addr, hi, ?_⟩
    by_contra hout
    exact hne ((stored_writeBytes hm _ (by omega) hmem a).trans (if_neg (by omega)))

/-- Settles O49: no command reads anything but its operands, and one that moves `pc` keeps the fault registers. -/
theorem resultsDependOnOperandsOnly : Obligations.ResultsDependOnOperandsOnly := by
  intro i s s' t _ hs ht
  obtain ⟨t', ht', hsame⟩ := hs.exec_same ht
  refine ⟨t', ht', hsame, fun hpc => ⟨sameFaultRegs_of_pc_ne ht hpc, sameFaultRegs_of_pc_ne ht' ?_⟩⟩
  obtain ⟨-, -, -, -, hpc_s⟩ := hs
  obtain ⟨-, -, -, -, hpc_t⟩ := hsame
  rwa [hpc_s, hpc_t]

/-- Settles O50: a command that is neither `LOADU` nor `STOREU` has only the completed way to end. -/
theorem wellFormedCommandsAlwaysAnswer : Obligations.WellFormedCommandsAlwaysAnswer := by
  intro i s hi
  obtain ⟨t, ht⟩ := exec_answers hi s
  have hcases := exec_completes_or_faults ht
  refine ⟨t, ht, hcases, fun hother => ?_⟩
  rcases hcases with hdone | ⟨vd, addr, he, -⟩ | ⟨vs1, addr, he, -⟩
  · exact hdone
  · exact absurd he (hother vd addr).1
  · exact absurd he (hother vs1 addr).2
end

section
/-! PROOFS. A reset after `k` lane accesses of the command at `pc` (R260, 93_implementation_defined.md U8). -/

namespace Sys2Proof.Machine

section
variable {s : State} (k : Nat)

/-- The registers after a reset are those of the reset, whatever memory holds at that moment. -/
theorem asResetLeaves_resetDuringStore : AsResetLeaves s (s.resetDuringStore k) := by
  obtain ⟨m, heq, -⟩ := State.resetDuringStore_cases s k
  exact heq ▸ asResetLeaves_resetEvent s m

theorem sameMem_of_eq_resetEvent {t : State} (h : t = s.resetEvent) : SameMem s t := h ▸ fun _ => rfl

variable {vs1 : VReg} {addr : Addr} {rest : List Word} (hrun : s.faultIrq = false)
  (hd : decode s.fetch = .ok (.storeu vs1 addr, rest))
include hrun hd

theorem resetDuringStore_past_top (h : 2 ^ 64 - 64 < addr.toNat) : s.resetDuringStore k = s.resetEvent := by
  rw [State.resetDuringStore_storeu hrun hd, if_neg (not_windowFits_of_lt h)]

/-- Memory after the reset is that after the lane writes that came before it. -/
theorem stored_resetDuringStore (hm : s.mem.wf = true) (hfit : addr.toNat ≤ 2 ^ 64 - 64) {n : Nat} (hn : n ≤ 64)
    (h : (storeLanes (s.readV vs1) addr.toNat (laneOrder.take k) s).1 =
      s.setMem (s.mem.writeBytes addr.toNat (vecByte (s.readV vs1)) n)) :
    Stored s (s.resetDuringStore k) (s.readV vs1) addr.toNat n := by
  refine stored_writeBytes hm _ (by omega) ?_
  rw [State.resetDuringStore_storeu hrun hd, if_pos ((windowFits_iff addr).2 hfit), State.resetEvent_mem, h,
    State.setMem_mem]

end

end Sys2Proof.Machine

/-! ### The obligation -/

open Sys2Proof Sys2Proof.Machine

/-- Settles O52: only a running `STOREU` whose window fits has written lanes, at most those before the first error. -/
theorem resetDuringStoreKeepsWholeLanes : Obligations.ResetDuringStoreKeepsWholeLanes := by
  refine fun s k hm => ⟨asResetLeaves_resetDuringStore k, fun hf => ?_, fun e he => ?_, fun i rest hd hi => ?_,
    fun vs1 addr rest hrun hd => ⟨fun hpast => ?_, fun hvalid => ?_, fun j hfit hj => ?_⟩⟩
  · exact sameMem_of_eq_resetEvent (State.resetDuringStore_halted hf k)
  · refine sameMem_of_eq_resetEvent (State.resetDuringStore_other (fun vs1 addr rest hd => ?_) k)
    cases he.symm.trans hd
  · refine sameMem_of_eq_resetEvent (State.resetDuringStore_other (fun vs1 addr rest' hd' => ?_) k)
    cases hd.symm.trans hd'
    exact hi vs1 addr rfl
  · exact sameMem_of_eq_resetEvent (resetDuringStore_past_top k hrun hd hpast)
  · have hle := hvalid.le
    exact stored_resetDuringStore k hrun hd hm (by omega) (by omega)
      (congrArg Prod.fst (storeLanes_take _ _ s (lanes_done_of_valid hvalid) k))
  · obtain ⟨herror, hdone⟩ := (firstError_iff s _ j).1 hj
    exact stored_resetDuringStore k hrun hd hm hfit (by omega) (storeLanes_take_error _ _ s j herror hdone k)
end
